-- ==== Sys2Proof/Word.lean ====
section
/-! DEFINITION. The words of the block: widths fixed by 00_scope.md R9. -/

namespace Sys2Proof

/-- A matrix entry, a shift byte or a duty value: 8 bits (00_scope.md R9). -/
abbrev Byte := BitVec 8

/-- A command word: 16 bits, bit 0 the least significant (00_scope.md R9, R11). -/
abbrev Word := BitVec 16

/-- A pin number: 6 bits (00_scope.md R9). -/
abbrev Pin := BitVec 6

end Sys2Proof
end

