-- ==== Sys2Proof/Config.lean ====
section
/-! DEFINITION. The two elaboration parameters of an instance (00_scope.md R6, R7) and the constants derived from them (R8).
The spec leaves no value open but these two, so no free value is declared (93_implementation_defined.md). -/

namespace Sys2Proof

/-- The parameters of one instance.  They are open within their legal ranges and cannot be built outside them
(00_scope.md R6, R7: a model "refuses to build an instance outside 1..8", "outside 2..255"). -/
structure Config where
  /-- `N_REG`, the number of 8-bit shift registers in the chain. -/
  nReg : Nat
  /-- `RES`, the number of time slices of a PWM cycle. -/
  res : Nat
  nReg_legal : 1 ≤ nReg ∧ nReg ≤ 8 := by decide
  res_legal : 2 ≤ res ∧ res ≤ 255 := by decide
deriving DecidableEq, Repr

/-- Build an instance from numbers, refusing those out of range (00_scope.md R6, R7; 70_reset_and_hazards.md R235). -/
def Config.build? (nReg res : Nat) : Option Config :=
  if hn : 1 ≤ nReg ∧ nReg ≤ 8 then
    if hr : 2 ≤ res ∧ res ≤ 255 then some ⟨nReg, res, hn, hr⟩ else none
  else none

/-- `NPINS = 8 * N_REG` (00_scope.md R8). -/
def Config.nPins (c : Config) : Nat := 8 * c.nReg

/-- `UPDATE_CYCLES = 16 * N_REG + 1` (00_scope.md R8). -/
def Config.updateCycles (c : Config) : Nat := 16 * c.nReg + 1

/-- The instance whose state after reset is `State.reset`: N_REG = 2, RES = 10, the source's own example
(95_test_vectors.md W2).  DESIGN CHOICE (log 1): the spec leaves both open.  Unsafe only for a statement about
`State.reset` itself; every other statement ranges over all of `Config`. -/
def Config.example2x10 : Config := { nReg := 2, res := 10 }

end Sys2Proof
end

