-- ==== Sys2Proof/Ports.lean ====
section
/-! DEFINITION. The input ports as one edge of `clk` samples them (10_state.md R20 to R24). -/

namespace Sys2Proof

/-- What the input ports hold at one rising edge of `clk` (10_state.md R20). -/
structure Sample where
  /-- Synchronous reset, active high (R22). -/
  rst : Bool
  /-- A command word is presented (R23). -/
  cmdValid : Bool
  /-- The command word, ignored unless `cmdValid` (R23). -/
  cmd : Word
  /-- The update request of the external timer (R24). -/
  tick : Bool
deriving DecidableEq, Repr

/-- An edge a stimulus program does not list: `cmd_valid = 0`, `tick = 0`, `rst = 0` (30_encoding.md R93). -/
def Sample.quiet : Sample := { rst := false, cmdValid := false, cmd := 0, tick := false }

end Sys2Proof
end

