-- ==== Sys2Proof/Machine/State.lean ====
section
/-! DEFINITION. The state of the block: exactly the elements of 10_state.md R28, with the instance's parameters and the
host's coming inputs beside them. -/

namespace Sys2Proof.Machine

/-- The sequencer state (10_state.md R31).  The encoding value 3 is omitted, as R31 allows (DESIGN CHOICE, safe: log 6). -/
inductive Seq where
  /-- No update in progress. -/
  | idle
  /-- A frame is being shifted bit by bit. -/
  | shift
  /-- The single latch cycle that ends an update. -/
  | latch
deriving DecidableEq, Repr

/-- Why the machine stops.  The spec gives the block no stop at all (60_exceptions.md R200, R218). -/
inductive Fault where
  /-- The sequencer asked for a matrix entry that does not exist (20_memory.md R62).  Raised by a byte load only, and
  only in a state that breaks 10_state.md R46, which no run from reset reaches.  DEDUCED, safe: log 5. -/
  | noSuchEntry (slice register : Nat)
deriving DecidableEq, Repr

/-- Why an instruction has no meaning. -/
inductive Refusal where
  /-- An instruction whose arm is not written yet.  No arm of `exec` answers it: every row of the table is modelled. -/
  | notModelled (mnemonic : String)
deriving DecidableEq, Repr

/-- The duty matrix as data: the entries that differ from 0x00, the value an entry has after reset (10_state.md R48),
each under a key of its pair `(t, r)` (`entryKey`), keys rising (`Memory.wf`).  The keys are the model's own: the block has no byte
addresses (20_memory.md R60, R76; DESIGN CHOICE, safe: log 4). -/
abbrev Memory := List Host.Cell

/-- The state of one instance. -/
structure State where
  /-- The elaboration parameters: no state of the spec's, never changed (10_state.md R28, R44;
  DESIGN CHOICE: log 1). -/
  cfg : Config
  /-- `M`, the duty matrix (R29). -/
  mem : Memory
  /-- `time`, the scheduling cursor (R30). -/
  time : BitVec 8
  /-- `seq`, the sequencer state (R31). -/
  seq : Seq
  /-- `ri`, the register being shifted (R32). -/
  ri : BitVec 3
  /-- `bi`, the bit of `sb` on the data line (R33). -/
  bi : BitVec 3
  /-- `ph`, the phase within a bit: false is 0, data set-up; true is 1, clock high (R34). -/
  ph : Bool
  /-- `sb`, the shift byte (R35). -/
  sb : Byte
  /-- `pend`, one update request waits (R36). -/
  pend : Bool
  /-- `err_arg`, sticky: a SET had a pin out of range (R37). -/
  errArg : Bool
  /-- `err_cmd`, sticky: a reserved command was accepted (R38). -/
  errCmd : Bool
  /-- `err_ovr`, sticky: an update request was lost (R39). -/
  errOvr : Bool
  /-- What the host drives at the coming edges, the next edge first; every edge past the end is quiet
  (30_encoding.md R93).  No state of the spec's: the host's side of 60_exceptions.md R212 (DESIGN CHOICE, safe: log 2). -/
  inputs : List Sample
deriving DecidableEq, Repr

/-- `RESET_STATE` of an instance (10_state.md R48), with nothing presented at its ports. -/
def State.resetOf (c : Config) : State :=
  { cfg := c, mem := [], time := 0, seq := .idle, ri := 0, bi := 0, ph := false, sb := 0,
    pend := false, errArg := false, errCmd := false, errOvr := false, inputs := [] }

/-- The state right after reset, of the instance `Config.example2x10` (DESIGN CHOICE, unsafe for a statement about this one
state only: log 1). -/
def State.reset : State := State.resetOf Config.example2x10

end Sys2Proof.Machine
end

