-- ==== Sys2Proof/Machine/Ops.lean ====
section
/-! DEFINITION. The named operations over the matrix, the ports and the registers.
The block takes no exception and returns from none (60_exceptions.md R200, R208, R209), so no such operation is here:
an error is a sticky flag (`Flags.lean`). -/

namespace Sys2Proof.Machine

/-! The matrix (20_memory.md). -/

/-- The key of the entry `M[t][r]`, r in 0..7 (DESIGN CHOICE, safe: log 4). -/
def entryKey (t r : Nat) : Nat := 8 * t + r

/-- The entry `M[t][r]` exists (20_memory.md R60, R62). -/
def entryExists (c : Config) (t r : Nat) : Bool := decide (t < c.res ∧ r < c.nReg)

/-- What an entry that is not listed holds: its reset value (10_state.md R48). -/
def unlistedByte : Byte := 0x00

/-- The byte under a key. -/
def Memory.read : Memory → Nat → Byte
  | [], _ => unlistedByte
  | (k, v) :: m, a => if k = a then v else Memory.read m a

/-- One cell in front of a memory, unless it holds what an unlisted key reads as. -/
def Memory.cons (a : Nat) (v : Byte) (m : Memory) : Memory :=
  if v = unlistedByte then m else (a, v) :: m

/-- Write the byte under a key, keeping the canonical form. -/
def Memory.write : Memory → Nat → Byte → Memory
  | [], a, v => Memory.cons a v []
  | (k, w) :: m, a, v =>
    if a < k then Memory.cons a v ((k, w) :: m)
    else if a = k then Memory.cons a v m
    else (k, w) :: Memory.write m a v

/-- Every key of `m` lies above `a`, keys rise, and no entry holds the unlisted byte. -/
def Memory.wfAbove : Option Nat → Memory → Bool
  | _, [] => true
  | lo, (k, v) :: m =>
    (match lo with | none => true | some a => decide (a < k)) && decide (v ≠ unlistedByte) &&
      Memory.wfAbove (some k) m

/-- The canonical form: keys strictly rising, no entry equal to what an unlisted key reads as. -/
def Memory.wf (m : Memory) : Bool := Memory.wfAbove none m

/-- `MatRead(t, r)` (00_scope.md R13). -/
def matRead (m : Memory) (t r : Nat) : Byte := m.read (entryKey t r)

/-- A byte with bit `b` set to `v` and its other bits kept (00_scope.md R13; 40_encoder.md R109). -/
def setBit (x : Byte) (b : Nat) (v : Bool) : Byte :=
  (x &&& ~~~(1#8 <<< b)) ||| (if v then 1#8 <<< b else 0#8)

/-- `MatWriteBit(t, r, b, v)` (00_scope.md R13). -/
def matWriteBit (m : Memory) (t r b : Nat) (v : Bool) : Memory :=
  m.write (entryKey t r) (setBit (matRead m t r) b v)

/-! The ports (10_state.md R20 to R24). -/

/-- What the next edge samples. -/
def State.sample (s : State) : Sample := s.inputs.headD Sample.quiet

/-- The edge has sampled its inputs. -/
def State.consumed (s : State) : State := { s with inputs := s.inputs.tail }

/-- The state after a reset edge: every element at its reset value whatever it was (70_reset_and_hazards.md R230, R231).
The parameters and the host's later inputs are no state of the block's. -/
def State.afterReset (s : State) : State := { State.resetOf s.cfg with inputs := s.inputs.tail }

/-! Groups of registers written together. -/

def State.withMem (s : State) (m : Memory) : State := { s with mem := m }

def State.withTime (s : State) (t : BitVec 8) : State := { s with time := t }

/-- The sequencer position `(seq, ri, bi, ph)` (10_state.md R42). -/
def State.withPosition (s : State) (q : Seq) (ri bi : BitVec 3) (ph : Bool) : State :=
  { s with seq := q, ri := ri, bi := bi, ph := ph }

def State.withShiftByte (s : State) (b : Byte) : State := { s with sb := b }

/-! Outcomes. -/

/-- Go on from a next state; a stop stays that stop. -/
def onNext (o : Host.Outcome State Fault Refusal) (f : State → State) : Host.Outcome State Fault Refusal :=
  match o with
  | .next s => .next (f s)
  | .fault r => .fault r
  | .refused r => .refused r

end Sys2Proof.Machine
end

