-- ==== Sys2Proof/Machine/Flags.lean ====
section
/-! DEFINITION. The flags: demand and arbitration (41_scheduler.md R130 to R137) and the sticky errors (60_exceptions.md R201
to R203). -/

namespace Sys2Proof.Machine

/-- `d = pend + req`, with `pend` before the edge (41_scheduler.md R133). -/
def demand (s : State) (req : Nat) : Nat := s.pend.toNat + req

/-- The requests of the `tick` port at this edge (41_scheduler.md R130, R131). -/
def tickRequests (s : State) : Nat := s.sample.tick.toNat

/-- What arbitration leaves: whether a request waits, and `err_ovr` if one was lost (41_scheduler.md R135 to R137). -/
def State.arbitrated (s : State) (pend lost : Bool) : State :=
  { s with pend := pend, errOvr := s.errOvr || lost }

/-- `err_arg <- 1` (60_exceptions.md R201). -/
def State.raiseErrArg (s : State) : State := { s with errArg := true }

/-- `err_cmd <- 1` (60_exceptions.md R202). -/
def State.raiseErrCmd (s : State) : State := { s with errCmd := true }

end Sys2Proof.Machine
end

