-- ==== Sys2Proof/Machine/Sequencer.lean ====
section
/-! DEFINITION. What every edge with `rst = 0` does besides the command: cursor (41_scheduler.md R138), arbitration
(R133 to R137) and the serial sequencer (42_sequencer.md R160 to R167). -/

namespace Sys2Proof.Machine

/-- `(time + 1) mod RES` as the comparison with `RES - 1` gives it (41_scheduler.md R138). -/
def advanceCursor (c : Config) (t : BitVec 8) : BitVec 8 :=
  if t.toNat = c.res - 1 then 0 else t + 1

/-- The cursor after this edge: advanced when LATCH is left, else unchanged (41_scheduler.md R138). -/
def nextCursor (s : State) : BitVec 8 :=
  match s.seq with
  | .latch => advanceCursor s.cfg s.time
  | .idle => s.time
  | .shift => s.time

/-- Load the shift byte with `M[t][r]` as it stands before the edge (20_memory.md R64, R67); an entry that does not exist
stops the machine (R62; DEDUCED, safe: log 5). -/
def loadByte (s : State) (t r : Nat) (f : State → State) : Host.Outcome State Fault Refusal :=
  if entryExists s.cfg t r then .next ((f s).withShiftByte (matRead s.mem t r))
  else .fault (.noSuchEntry t r)

/-- Start an update (42_sequencer.md R162). -/
def startUpdate (s : State) : Host.Outcome State Fault Refusal :=
  loadByte s (nextCursor s).toNat (s.cfg.nReg - 1) fun u =>
    (u.withTime (nextCursor s)).withPosition .shift (BitVec.ofNat 3 (s.cfg.nReg - 1)) 0 false

/-- One edge of a running frame: clock phase, next bit, next register or end of frame (42_sequencer.md R163 to R166). -/
def shiftOn (s : State) : Host.Outcome State Fault Refusal :=
  if s.ph = false then .next (s.withPosition .shift s.ri s.bi true)
  else if s.bi.toNat < 7 then .next (s.withPosition .shift s.ri (s.bi + 1) false)
  else if 0 < s.ri.toNat then
    loadByte s s.time.toNat (s.ri.toNat - 1) fun u => u.withPosition .shift (s.ri - 1) 0 false
  else .next (s.withPosition .latch 0 0 false)

/-- No update starts: IDLE keeps its position (42_sequencer.md R160; where R180's listing writes 0, in states no run reaches,
DEDUCED, safe: log 7), LATCH is left for IDLE with the cursor advanced (R167).  Not used in SHIFT. -/
def stayIdle (s : State) : State :=
  match s.seq with
  | .latch => (s.withTime (nextCursor s)).withPosition .idle 0 0 false
  | .idle => s
  | .shift => s

/-- An edge at which the sequencer can start, with demand `d` (41_scheduler.md R134, R135). -/
def serveOrRest (s : State) (d : Nat) : Host.Outcome State Fault Refusal :=
  if 1 ≤ d then onNext (startUpdate s) fun u => u.arbitrated (decide (2 ≤ d)) (decide (3 ≤ d))
  else .next ((stayIdle s).arbitrated false false)

/-- Scheduler and sequencer at one edge, `req` requests sampled (41_scheduler.md R134 to R136). -/
def runSequencer (s : State) (req : Nat) : Host.Outcome State Fault Refusal :=
  match s.seq with
  | .idle => serveOrRest s (demand s req)
  | .latch => serveOrRest s (demand s req)
  | .shift =>
    onNext (shiftOn s) fun u =>
      u.arbitrated (decide (1 ≤ demand s req)) (decide (2 ≤ demand s req))

/-- One rising edge of `clk`.  `write` is what the command writes: it touches only `M`, `err_arg` and `err_cmd`, which the
sequencer does not write, so it sees their values from before the edge (00_scope.md R12; 70_reset_and_hazards.md R241),
and the sequencer reads `M` from before the edge (20_memory.md R67).  With `rst = 1` only the reset happens (R230). -/
def clockEdge (write : State → State) (req : Nat) (s : State) : Host.Outcome State Fault Refusal :=
  if s.sample.rst then .next s.afterReset
  else onNext (runSequencer s req) fun u => (write u).consumed

/-- An edge at which nothing is presented (42_sequencer.md R160; 43_misc_commands.md R190), or a reset edge. -/
def idleEdge (s : State) : Host.Outcome State Fault Refusal := clockEdge id 0 s

end Sys2Proof.Machine
end

