-- ==== Sys2Proof/Machine/Misc.lean ====
section
/-! DEFINITION. NOP and the reserved opcode (43_misc_commands.md). -/

namespace Sys2Proof.Machine

/-- NOP (43_misc_commands.md R190): the edge as if no command were presented; a TICK still counts. -/
def execNop (s : State) : Host.Outcome State Fault Refusal :=
  clockEdge id (tickRequests s) s

/-- RSVD (43_misc_commands.md R191): `err_cmd <- 1`, nothing else. -/
def execRsvd (s : State) : Host.Outcome State Fault Refusal :=
  clockEdge State.raiseErrCmd (tickRequests s) s

end Sys2Proof.Machine
end

