-- ==== Sys2Proof/Asm.lean ====
section
/-! DEFINITION. The assembler's terms: commands, port events and pseudo-instructions with numbers as a program writes them
(30_encoding.md R91, R92), and stimulus programs (R93).  Unlike `Instr` these terms can be ill-formed. -/

namespace Sys2Proof

/-- One item of a program line (30_encoding.md R91, R92). -/
inductive AsmItem where
  | nop
  /-- `SET <pin>, <value>`: pin 0..63, value 0..255, "other values are an assembly error". -/
  | set (pin value : Nat)
  | update
  /-- `.word <w>`: any 16-bit word. -/
  | word (w : Nat)
  | tick
  | reset
  /-- `ON <pin>` is `SET <pin>, 255`. -/
  | on (pin : Nat)
  /-- `OFF <pin>` is `SET <pin>, 0`. -/
  | off (pin : Nat)
  /-- `SETALL <value>`: a SET of every pin, on consecutive edges. -/
  | setAll (value : Nat)
  /-- `WAIT <n>`: n quiet edges. -/
  | wait (n : Nat)
  /-- `TICK+UPDATE` in one cycle. -/
  | tickUpdate
  /-- `SET <pin>, <value> & TICK` in one cycle. -/
  | setTick (pin value : Nat)
deriving DecidableEq, Repr

/-- A line `<cycle>: <items>` of a stimulus program (30_encoding.md R93). -/
structure AsmLine where
  edge : Nat
  items : List AsmItem
deriving DecidableEq, Repr

end Sys2Proof
end

