-- ==== Sys2Proof/Syntax.lean ====
section
/-! DEFINITION. The operations of the block, one constructor per row of the opcode table (30_encoding.md R84, R88).
Each operand has exactly the width of its field (R81, R85), so every term is well-formed. -/

namespace Sys2Proof

/-- The four behaviours of the command port and the port event TICK.  The bits a format-N word ignores
(30_encoding.md R86) have no place here: any value of them is the same instruction (DESIGN CHOICE, safe: log 11). -/
inductive Instr where
  /-- NOP, opcode 00 (43_misc_commands.md R190). -/
  | nop
  /-- SET, opcode 01: write one pin's duty column (40_encoder.md R104). -/
  | set (pin : Pin) (val : Byte)
  /-- UPDATE, opcode 10: a manual update request (41_scheduler.md R132). -/
  | update
  /-- RSVD, the reserved opcode 11 (43_misc_commands.md R191). -/
  | rsvd
  /-- TICK, the port event `tick = 1` with `rst = 0` (41_scheduler.md R131); it has no command word. -/
  | tick
deriving DecidableEq, Repr

end Sys2Proof
end

