-- ==== Sys2Proof/Decode.lean ====
section
/-! DEFINITION. The decoder of command words (30_encoding.md R84 to R90), the encoder back, and the assembler of
stimulus programs (R91 to R93). -/

namespace Sys2Proof

/-- The field `op = cmd[15:14]` (30_encoding.md R81). -/
def opField (w : Word) : BitVec 2 := w.extractLsb' 14 2

/-- The field `pin = cmd[13:8]` (30_encoding.md R81). -/
def pinField (w : Word) : Pin := w.extractLsb' 8 6

/-- The field `val = cmd[7:0]` (30_encoding.md R81). -/
def valField (w : Word) : Byte := w.extractLsb' 0 8

/-- Decode a command word (30_encoding.md R90).  Total: the four opcodes partition all words (R84, R89), so no word
is refused; bits 13..0 of a format-N word are ignored (R86). -/
def decode (w : Word) : Instr :=
  if opField w = 0b00#2 then .nop
  else if opField w = 0b01#2 then .set (pinField w) (valField w)
  else if opField w = 0b10#2 then .update
  else .rsvd

/-- What one edge's ports ask for: nothing at a reset edge (70_reset_and_hazards.md R233), the command if one is
presented (10_state.md R23; a TICK of the same edge is read by the command's meaning), else TICK (30_encoding.md R88). -/
def decodeSample (e : Sample) : Option Instr :=
  if e.rst then none
  else if e.cmdValid then some (decode e.cmd)
  else if e.tick then some .tick
  else none

/-- The command word of an instruction, ignored bits written 0 as the assembler does (30_encoding.md R86, R91).
TICK is not a command word (R88). -/
def encode : Instr → Option Word
  | .nop => some 0x0000#16
  | .set pin val => some (0b01#2 ++ pin ++ val)
  | .update => some 0x8000#16
  | .rsvd => some 0xC000#16
  | .tick => none

/-- The ports presenting exactly this instruction and nothing else (30_encoding.md R91). -/
def encodeSample (i : Instr) : Sample :=
  match encode i with
  | some w => { rst := false, cmdValid := true, cmd := w, tick := false }
  | none => { rst := false, cmdValid := false, cmd := 0, tick := true }

/-- Why bits are no instruction of the block. -/
inductive DecodeReject where
  /-- More bits than the one 16-bit word a command has (30_encoding.md R80). -/
  | longerThanOneWord (nbits : Nat)
deriving DecidableEq, Repr

/-- The input ports when an instruction of the opcode table is presented: a command word of at most 16 bits, the bits
above `nbits` zero, or, for the one row that has no word bits, the TICK event (DESIGN CHOICE, safe: log 10). -/
def presentBits (nbits w : Nat) : Except DecodeReject Sample :=
  if nbits = 0 then .ok { rst := false, cmdValid := false, cmd := 0, tick := true }
  else if nbits ≤ 16 then
    .ok { rst := false, cmdValid := true, cmd := BitVec.ofNat 16 (w % 2 ^ nbits), tick := false }
  else .error (.longerThanOneWord nbits)

/-- The instruction the decoder reads from `nbits` bits numbered as the opcode table numbers them. -/
def decodeTableWord (nbits w : Nat) : Option Instr :=
  match presentBits nbits w with
  | .ok e => decodeSample e
  | .error _ => none

/-! The assembler. -/

/-- A port sample presenting the command word `w`. -/
def commandSample (w : Nat) : Sample := { Sample.quiet with cmdValid := true, cmd := BitVec.ofNat 16 w }

/-- The word of `SET <pin>, <value>`: `0x4000 + 256*pin + value` (30_encoding.md R91). -/
def setWord (pin value : Nat) : Nat := 0x4000 + 256 * pin + value

/-- The samples of one item, one per edge it occupies (30_encoding.md R91, R92); `SETALL` names the pins of the instance. -/
def AsmItem.samples (c : Config) : AsmItem → List Sample
  | .nop => [commandSample 0x0000]
  | .set pin value => [commandSample (setWord pin value)]
  | .update => [commandSample 0x8000]
  | .word w => [commandSample w]
  | .tick => [{ Sample.quiet with tick := true }]
  | .reset => [{ Sample.quiet with rst := true }]
  | .on pin => [commandSample (setWord pin 255)]
  | .off pin => [commandSample (setWord pin 0)]
  | .setAll value => (List.range c.nPins).map fun pin => commandSample (setWord pin value)
  | .wait n => List.replicate n Sample.quiet
  | .tickUpdate => [{ commandSample 0x8000 with tick := true }]
  | .setTick pin value => [{ commandSample (setWord pin value) with tick := true }]

/-- Items of one edge together: every event asserted by either, and the one command word (30_encoding.md R93). -/
def mergeSample (a b : Sample) : Sample :=
  { rst := a.rst || b.rst
    cmdValid := a.cmdValid || b.cmdValid
    cmd := if a.cmdValid then a.cmd else b.cmd
    tick := a.tick || b.tick }

/-- Lay two sample lists over each other edge by edge. -/
def mergeSamples : List Sample → List Sample → List Sample
  | [], bs => bs
  | as, [] => as
  | a :: as, b :: bs => mergeSample a b :: mergeSamples as bs

/-- Lay `new` over `base` from edge `k` on; edges in between are quiet (30_encoding.md R93). -/
def overlay : Nat → List Sample → List Sample → List Sample
  | 0, base, new => mergeSamples base new
  | k + 1, [], new => Sample.quiet :: overlay k [] new
  | k + 1, b :: base, new => b :: overlay k base new

/-- The samples of a stimulus program, edge 0 first (30_encoding.md R93). -/
def assemble (c : Config) (prog : List AsmLine) : List Sample :=
  prog.foldl
    (fun acc line => line.items.foldl (fun acc item => overlay line.edge acc (item.samples c)) acc) []

/-! The assembler's text (30_encoding.md R91, R92): "case-insensitive mnemonics, numbers in decimal or `0x` hexadecimal". -/

/-- The words and marks of a line; letters lower-cased, blanks dropped.  `cur` is the word being read, last letter first. -/
def asmTokens (cur : List Char) : List Char → List (List Char)
  | [] => if cur = [] then [] else [cur.reverse]
  | c :: cs =>
    let done := if cur = [] then [] else [cur.reverse]
    if c = ' ' then done ++ asmTokens [] cs
    else if c = ',' ∨ c = '&' ∨ c = '+' ∨ c = ':' then done ++ [c] :: asmTokens [] cs
    else asmTokens (c.toLower :: cur) cs

/-- The value of a digit below `base`. -/
def digitValue (base : Nat) (c : Char) : Option Nat :=
  let v := if c.isDigit then c.toNat - '0'.toNat else if 'a'.toNat ≤ c.toNat then c.toNat - 'a'.toNat + 10 else base
  if v < base then some v else none

/-- Digits most significant first, `acc` what stands before them. -/
def digitsValue (base acc : Nat) : List Char → Option Nat
  | [] => some acc
  | c :: cs => (digitValue base c).bind fun v => digitsValue base (acc * base + v) cs

/-- A number, decimal or `0x` hexadecimal. -/
def parseNumber (w : List Char) : Option Nat :=
  match w with
  | '0' :: 'x' :: d :: ds => digitsValue 16 0 (d :: ds)
  | d :: ds => digitsValue 10 0 (d :: ds)
  | [] => none

/-- An item from its tokens (30_encoding.md R91, R92); what no row of the two tables gives is no item. -/
def parseTokens (ts : List (List Char)) : Option AsmItem :=
  match ts with
  | [m] =>
    if m = "nop".toList then some .nop
    else if m = "update".toList then some .update
    else if m = "tick".toList then some .tick
    else if m = "reset".toList then some .reset
    else none
  | [m, a] =>
    (parseNumber a).bind fun x =>
      if m = ".word".toList then some (.word x)
      else if m = "on".toList then some (.on x)
      else if m = "off".toList then some (.off x)
      else if m = "setall".toList then some (.setAll x)
      else if m = "wait".toList then some (.wait x)
      else none
  | [m, a, b] =>
    if m = "tick".toList ∧ a = "+".toList ∧ b = "update".toList then some .tickUpdate else none
  | [m, a, c, b] =>
    if m = "set".toList ∧ c = ",".toList then
      (parseNumber a).bind fun x => (parseNumber b).bind fun y => some (.set x y)
    else none
  | [m, a, c, b, d, k] =>
    if m = "set".toList ∧ c = ",".toList ∧ d = "&".toList ∧ k = "tick".toList then
      (parseNumber a).bind fun x => (parseNumber b).bind fun y => some (.setTick x y)
    else none
  | _ => none

/-- An item as written. -/
def parseItem (line : String) : Option AsmItem := parseTokens (asmTokens [] line.toList)

/-- A program line `<cycle>: <item>` as written, with its one item (30_encoding.md R93). -/
def parseLine (line : String) : Option AsmLine :=
  match asmTokens [] line.toList with
  | n :: m :: ts =>
    if m = ":".toList then
      (parseNumber n).bind fun k => (parseTokens ts).map fun item => { edge := k, items := [item] }
    else none
  | _ => none

end Sys2Proof
end

