-- ==== Sys2Proof/Machine/Operands.lean ====
section
/-! DEFINITION. SET's operands: which matrix bits a pin names (20_memory.md R61) and what a duty value asks of them
(40_encoder.md R100, R103). -/

namespace Sys2Proof.Machine

/-- `r = pin[5:3]`, the register a pin lives in (20_memory.md R61). -/
def pinRegister (p : Pin) : Nat := (p.extractLsb' 3 3).toNat

/-- `b = pin[2:0]`, the bit of that register (20_memory.md R61). -/
def pinBit (p : Pin) : Nat := (p.extractLsb' 0 3).toNat

/-- `pin < 8 * N_REG` (40_encoder.md R104, R105). -/
def pinInRange (c : Config) (p : Pin) : Bool := decide (p.toNat < c.nPins)

/-- The scaled threshold of a duty value (40_encoder.md R100). -/
def scaled (v res : Nat) : Nat := (v * res + 127) / 255

/-- The threshold comparator (40_encoder.md R103). -/
def colbit (s t : Nat) : Bool := decide (t < s)

/-- Write bit `b` of `M[t][r]` for the slices `t` below the count given: the comparator's pattern for threshold `th`
(40_encoder.md R104). -/
def writeColumn (r b th : Nat) : Nat → Memory → Memory
  | 0, m => m
  | t + 1, m => writeColumn r b th t (matWriteBit m t r b (colbit th t))

end Sys2Proof.Machine
end

