-- ==== Sys2Proof/Machine/Encoder.lean ====
section
/-! DEFINITION. The SET family (40_encoder.md). -/

namespace Sys2Proof.Machine

/-- What SET writes: the pin's whole column, or `err_arg` when the pin is out of range (40_encoder.md R104, R105). -/
def setPin (p : Pin) (v : Byte) (s : State) : State :=
  if pinInRange s.cfg p then
    s.withMem (writeColumn (pinRegister p) (pinBit p) (scaled v.toNat s.cfg.res) s.cfg.res s.mem)
  else s.raiseErrArg

/-- SET (40_encoder.md R104); a TICK sampled at the same edge counts (60_exceptions.md R207). -/
def execSet (p : Pin) (v : Byte) (s : State) : Host.Outcome State Fault Refusal :=
  clockEdge (setPin p v) (tickRequests s) s

end Sys2Proof.Machine
end

