-- ==== Sys2Proof/Machine/Scheduler.lean ====
section
/-! DEFINITION. The update requests (41_scheduler.md R130 to R132). -/

namespace Sys2Proof.Machine

/-- What a decoded command writes to `M`, `err_arg` and `err_cmd` (40_encoder.md R104; 43_misc_commands.md R191). -/
def commandWrite : Instr → State → State
  | .nop, s => s
  | .set p v, s => setPin p v s
  | .update, s => s
  | .rsvd, s => s.raiseErrCmd
  | .tick, s => s

/-- The requests a decoded command adds (41_scheduler.md R130). -/
def commandRequests : Instr → Nat
  | .nop => 0
  | .set _ _ => 0
  | .update => 1
  | .rsvd => 0
  | .tick => 0

/-- What the command port writes at an edge: nothing unless a command is presented (10_state.md R23). -/
def portWrite (e : Sample) (s : State) : State :=
  if e.cmdValid then commandWrite (decode e.cmd) s else s

/-- The requests of the command port at an edge (41_scheduler.md R130). -/
def portRequests (e : Sample) : Nat :=
  if e.cmdValid then commandRequests (decode e.cmd) else 0

/-- UPDATE (41_scheduler.md R132): one request, beside a TICK of the same edge (R130). -/
def execUpdate (s : State) : Host.Outcome State Fault Refusal :=
  clockEdge id (tickRequests s + 1) s

/-- TICK (41_scheduler.md R131): one request, beside whatever the command port presents at the same edge
(60_exceptions.md R207; DESIGN CHOICE, safe: log 8). -/
def execTick (s : State) : Host.Outcome State Fault Refusal :=
  clockEdge (portWrite s.sample) (portRequests s.sample + 1) s

end Sys2Proof.Machine
end

