-- ==== Sys2Proof/Machine/Dispatch.lean ====
section
/-! DEFINITION. One arm per instruction, each a direct call of its meaning. -/

namespace Sys2Proof.Machine

def exec (i : Instr) (s : State) : Host.Outcome State Fault Refusal :=
  match i with
  | .nop => Sys2Proof.Machine.execNop s
  | .set p v => Sys2Proof.Machine.execSet p v s
  | .update => Sys2Proof.Machine.execUpdate s
  | .rsvd => Sys2Proof.Machine.execRsvd s
  | .tick => Sys2Proof.Machine.execTick s

end Sys2Proof.Machine
end

