-- ==== Sys2Proof/Machine/Step.lean ====
section
/-! DEFINITION. One step is one rising edge of `clk` (00_scope.md R10; 42_sequencer.md R180). -/

namespace Sys2Proof.Machine

/-- One edge: the command presented, else TICK, else nothing; a reset edge decodes to nothing (`decodeSample`). -/
def step (s : State) : Host.Outcome State Fault Refusal :=
  match decodeSample s.sample with
  | some i => exec i s
  | none => idleEdge s

/-- The state with an instruction presented at its next edge; `tick` is kept as the host drives it, unless the
instruction is the TICK row (DESIGN CHOICE, safe: log 3). -/
def State.withFetchWord (s : State) (nbits w : Nat) : State :=
  match presentBits nbits w with
  | .ok e => { s with inputs := { e with tick := e.tick || s.sample.tick } :: s.inputs.tail }
  | .error _ => s

end Sys2Proof.Machine
end

