-- ==== Sys2Proof/Listing.lean ====
section
/-! DEFINITION. The listing of 42_sequencer.md R180, line by line over plain numbers, and the view of a model state as the listing
sees it.  Nothing in the machine uses it: it is what one statement compares the machine with. -/

namespace Sys2Proof

/-- The listing's state: the elements of 10_state.md R28, `M` as a table of bytes. -/
structure ListingState where
  M : Nat → Nat → Byte
  time : Nat
  seq : Machine.Seq
  ri : Nat
  bi : Nat
  ph : Nat
  sb : Byte
  pend : Bool
  errArg : Bool
  errCmd : Bool
  errOvr : Bool

/-- `RESET_STATE` (10_state.md R48). -/
def listingReset : ListingState :=
  { M := fun _ _ => 0x00, time := 0, seq := .idle, ri := 0, bi := 0, ph := 0, sb := 0x00, pend := false,
    errArg := false, errCmd := false, errOvr := false }

/-- The byte `x` with bit `b` written: `(x & ~m) | (c ? m : 0)`, `m = 1 << b` (40_encoder.md R109). -/
def listingBit (x : Byte) (b : Nat) (c : Bool) : Byte :=
  let m : Byte := BitVec.ofNat 8 (2 ^ b)
  (x &&& ~~~m) ||| (if c then m else 0x00)

/-- "matrix and error flags": what the command word writes, `op` 0 to 3 (42_sequencer.md R180). -/
def listingCommand (nReg res : Nat) (s : ListingState) (cmdValid : Bool) (cmd : Nat) : ListingState :=
  let op := cmd / 2 ^ 14
  let pin := cmd / 2 ^ 8 % 2 ^ 6
  let val := cmd % 2 ^ 8
  if cmdValid = true ∧ op = 1 then
    if pin < 8 * nReg then
      let v := (val * res + 127) / 255
      let r := cmd / 2 ^ 11 % 2 ^ 3
      let b := cmd / 2 ^ 8 % 2 ^ 3
      { s with M := fun t q => if t < res ∧ q = r then listingBit (s.M t q) b (decide (t < v)) else s.M t q }
    else { s with errArg := true }
  else if cmdValid = true ∧ op = 3 then { s with errCmd := true }
  else s

/-- `step(N_REG, RES, s, rst, cmd_valid, cmd, tick)` (42_sequencer.md R180). -/
def listingStep (nReg res : Nat) (s : ListingState) (rst cmdValid : Bool) (cmd : Nat) (tick : Bool) : ListingState :=
  if rst then listingReset
  else
    let n := listingCommand nReg res s cmdValid cmd
    let req := (if tick then 1 else 0) + (if cmdValid = true ∧ cmd / 2 ^ 14 = 2 then 1 else 0)
    let d := (if s.pend then 1 else 0) + req
    let time' := if s.seq = .latch then (if s.time = res - 1 then 0 else s.time + 1) else s.time
    if s.seq = .idle ∨ s.seq = .latch then
      if 1 ≤ d then
        { n with time := time', seq := .shift, ri := nReg - 1, bi := 0, ph := 0, sb := s.M time' (nReg - 1),
                 pend := decide (2 ≤ d), errOvr := s.errOvr || decide (3 ≤ d) }
      else { n with time := time', seq := .idle, ri := 0, bi := 0, ph := 0, pend := false }
    else
      let n := { n with pend := decide (1 ≤ d), errOvr := s.errOvr || decide (2 ≤ d) }
      if s.ph = 0 then { n with ph := 1 }
      else if s.bi < 7 then { n with bi := s.bi + 1, ph := 0 }
      else if 0 < s.ri then { n with ri := s.ri - 1, bi := 0, ph := 0, sb := s.M s.time (s.ri - 1) }
      else { n with seq := .latch, ri := 0, bi := 0, ph := 0 }

/-- A model state as the listing sees it; the table reads 0x00 where the matrix has no entry. -/
def Machine.State.listing (s : Machine.State) : ListingState :=
  { M := fun t r => if t < s.cfg.res ∧ r < s.cfg.nReg then Machine.matRead s.mem t r else 0x00
    time := s.time.toNat, seq := s.seq, ri := s.ri.toNat, bi := s.bi.toNat, ph := s.ph.toNat, sb := s.sb,
    pend := s.pend, errArg := s.errArg, errCmd := s.errCmd, errOvr := s.errOvr }

end Sys2Proof
end

