-- ==== Sys2Proof/Machine/Outputs.lean ====
section
/-! DEFINITION. The output ports, functions of the state alone (42_sequencer.md R161; 10_state.md R25 to R27, R40). -/

namespace Sys2Proof.Machine

/-- `sr_data`. -/
def srData (s : State) : Bool :=
  match s.seq with
  | .shift => s.sb.getLsbD s.bi.toNat
  | .idle => false
  | .latch => false

/-- `sr_clk`. -/
def srClk (s : State) : Bool :=
  match s.seq with
  | .shift => s.ph
  | .idle => false
  | .latch => false

/-- `sr_latch`. -/
def srLatch (s : State) : Bool :=
  match s.seq with
  | .shift => false
  | .idle => false
  | .latch => true

/-- `busy`. -/
def busy (s : State) : Bool := decide (s.seq ≠ .idle)

/-- The status word `{3'b000, err_ovr, err_cmd, err_arg, pend, busy}` (10_state.md R40). -/
def status (s : State) : BitVec 8 :=
  0#3 ++ BitVec.ofBool s.errOvr ++ BitVec.ofBool s.errCmd ++ BitVec.ofBool s.errArg ++
    BitVec.ofBool s.pend ++ BitVec.ofBool (busy s)

end Sys2Proof.Machine
end

