-- ==== Sys2Proof/WellFormed.lean ====
section
/-! DEFINITION. Well-formedness.  An `Instr` is well-formed by its types: every pin and every value its fields admit is a
legal instruction (30_encoding.md R85, R89; whether a pin is in range is decided at execution, 40_encoder.md R105).
What can be ill-formed is an assembler item or a stimulus program (30_encoding.md R91, R93). -/

namespace Sys2Proof

/-- `SET` operands: "pin 0..63, value 0..255; other values are an assembly error" (30_encoding.md R91). -/
def pinWritable (pin : Nat) : Bool := decide (pin ≤ 63)

def valueWritable (value : Nat) : Bool := decide (value ≤ 255)

/-- An item the assembler accepts (30_encoding.md R91, R92). -/
def AsmItem.wellFormed : AsmItem → Bool
  | .set pin value => pinWritable pin && valueWritable value
  | .word w => decide (w < 2 ^ 16)
  | .on pin => pinWritable pin
  | .off pin => pinWritable pin
  | .setAll value => valueWritable value
  | .setTick pin value => pinWritable pin && valueWritable value
  | .nop => true
  | .update => true
  | .tick => true
  | .reset => true
  | .wait _ => true
  | .tickUpdate => true

/-- The edges at which an item laid from edge `e` on presents a command word. -/
def AsmItem.commandEdges (c : Config) (e : Nat) (item : AsmItem) : List Nat :=
  ((item.samples c).zipIdx e).filterMap fun p => if p.1.cmdValid then some p.2 else none

/-- The edges at which a program presents a command word, once per word. -/
def programCommandEdges (c : Config) (prog : List AsmLine) : List Nat :=
  prog.flatMap fun line => line.items.flatMap (AsmItem.commandEdges c line.edge)

/-- A stimulus program: well-formed items and "at most one command word per edge" (30_encoding.md R93). -/
def programWellFormed (c : Config) (prog : List AsmLine) : Bool :=
  prog.all (fun line => line.items.all AsmItem.wellFormed) && decide (programCommandEdges c prog).Nodup

end Sys2Proof
end

