-- ==== Sys2Proof/Safety.lean ====
section
/-! DEFINITION. The terms claims are stated in: the invariant of the reachable states, an error-free state, runs, and
what the host presents. -/

namespace Sys2Proof.Machine

/-- What every state reached from reset satisfies: 10_state.md R46, and the canonical form of the matrix with no entry
outside it listed (20_memory.md R62; log 4). -/
structure State.Inv (s : State) : Prop where
  mem_wf : s.mem.wf = true
  mem_inside : ∀ c ∈ s.mem, entryExists s.cfg (c.1 / 8) (c.1 % 8) = true
  time_lt : s.time.toNat < s.cfg.res
  ri_lt : s.seq = .shift → s.ri.toNat < s.cfg.nReg
  position_zero : s.seq ≠ .shift → s.ri = 0 ∧ s.bi = 0 ∧ s.ph = false
  idle_pend : s.seq = .idle → s.pend = false

/-- No error is recorded: what "a claim about correct operation takes" as its premise (60_exceptions.md R218). -/
def State.errorFree (s : State) : Prop := s.errArg = false ∧ s.errCmd = false ∧ s.errOvr = false

/-- Bit t of pin p's column, `M[t][p div 8][p mod 8]` (20_memory.md R61). -/
def pinColumn (s : State) (p t : Nat) : Bool := (matRead s.mem t (p / 8)).getLsbD (p % 8)

/-- Every pin's column is a run of ones from slice 0 followed by zeros (10_state.md R47). -/
def State.Thermometer (s : State) : Prop :=
  ∀ p < s.cfg.nPins, ∃ th ≤ s.cfg.res, ∀ t < s.cfg.res, pinColumn s p t = decide (t < th)

/-- `k` edges, stopping at the first stop. -/
def stepN : Nat → State → Host.Outcome State Fault Refusal
  | 0, s => .next s
  | k + 1, s =>
    match step s with
    | .next t => stepN k t
    | .fault r => .fault r
    | .refused r => .refused r

/-- Update requests of one edge's ports (41_scheduler.md R130). -/
def sampleRequests (e : Sample) : Nat :=
  (if e.tick then 1 else 0) + (if e.cmdValid = true ∧ e.cmd.toNat / 2 ^ 14 = 2 then 1 else 0)

/-- `d = pend + req` at the next edge (41_scheduler.md R133). -/
def edgeDemand (s : State) : Nat := (if s.pend then 1 else 0) + sampleRequests s.sample

/-- The cursor after the next edge, as a number (41_scheduler.md R138; `T` of 42_sequencer.md R162). -/
def rowAfter (s : State) : Nat :=
  if s.seq = .latch then (if s.time.toNat = s.cfg.res - 1 then 0 else s.time.toNat + 1) else s.time.toNat

/-- An update starts at edge `k` of the run from `s` (41_scheduler.md R135). -/
def startsAt (s : State) (k : Nat) : Bool :=
  match stepN k s with
  | .next t => decide (t.sample.rst = false ∧ t.seq ≠ .shift ∧ 1 ≤ edgeDemand t)
  | .fault _ => false
  | .refused _ => false

/-- How many updates start at the first `n` edges of the run from `s`. -/
def startCount (s : State) (n : Nat) : Nat := (List.range n).countP (startsAt s)

/-- The bit of pin `p` in the frame that starts at edge `k` of the run from `s`: the data line in the cycle in which the
clock is high for it (42_sequencer.md R168, R171). -/
def frameBit (s : State) (k p : Nat) : Bool :=
  match stepN (k + 2 * (8 * (s.cfg.nReg - 1 - p / 8) + p % 8) + 2) s with
  | .next t => srClk t && srData t
  | .fault _ => false
  | .refused _ => false

/-- The host keeps `rst` low at the next `n` edges. -/
def State.noResetFor (n : Nat) (s : State) : Prop := ∀ e ∈ s.inputs.take n, e.rst = false

/-- The ports of this edge carry an accepted SET of pin `p` (40_encoder.md R104). -/
def setsPin (e : Sample) (p : Pin) : Prop := e.rst = false ∧ e.cmdValid = true ∧ ∃ v, decode e.cmd = .set p v

/-- The same state with the command word `w` presented at the next edge, `rst` and `tick` as they are. -/
def State.presenting (s : State) (w : Word) : State :=
  { s with inputs := { s.sample with cmdValid := true, cmd := w } :: s.inputs.tail }

/-- The same state with no command presented at the next edge. -/
def State.withoutCommand (s : State) : State :=
  { s with inputs := { s.sample with cmdValid := false } :: s.inputs.tail }

/-- The same state with `tick` asserted at the next edge. -/
def State.withTick (s : State) : State :=
  { s with inputs := { s.sample with tick := true } :: s.inputs.tail }

/-- A reset state of an instance with any inputs to come: where runs start (70_reset_and_hazards.md R234). -/
def State.launch (c : Config) (inputs : List Sample) : State := { State.resetOf c with inputs := inputs }

/-- `s` lies in a run in which pin `p`'s last SET had the value `v`, or no SET of `p` came since reset and `v` is 0 (the
premise of 41_scheduler.md R141). -/
def State.LastSet (s : State) (p : Pin) (v : Byte) : Prop :=
  (∃ (a u : State) (k : Nat), a.Inv ∧ a.sample.rst = false ∧ exec (.set p v) a = .next u ∧
    u.noResetFor k ∧ (∀ e ∈ u.inputs.take k, ¬ setsPin e p) ∧ stepN k u = .next s) ∨
  (v = 0 ∧ ∃ (c : Config) (inputs : List Sample) (k : Nat), (State.launch c inputs).noResetFor k ∧
    (∀ e ∈ inputs.take k, ¬ setsPin e p) ∧ stepN k (State.launch c inputs) = .next s)

end Sys2Proof.Machine
end

