-- ==== Sys2Proof/Certificates/Slice0/Obligations.lean ====
section
/-! DEFINITION. The statements for the provers.  Each docstring names the rules of spec/ it formalises. -/

open Sys2Proof Sys2Proof.Machine

/-! ## Encoding (30_encoding.md) -/

/-- The words of 95_test_vectors.md 2.3 decode as that table says. -/
def Obligations.VectorWordsDecode : Prop :=
  decode 0x0000 = .nop ∧ decode 0x3FFF = .nop ∧ decode 0x4000 = .set 0 0 ∧ decode 0x4080 = .set 0 128 ∧
  decode 0x7FFF = .set 63 255 ∧ decode 0x8000 = .update ∧ decode 0xBFFF = .update ∧
  decode 0xC000 = .rsvd ∧ decode 0xFFFF = .rsvd

/-- 30_encoding.md R84, R85, R89, R90: the four mask-and-match rows partition the words, and each selects its
instruction, SET with its fields unscaled. -/
def Obligations.OpcodeMapIsComplete : Prop :=
  ∀ w : Word,
    (w &&& 0xC000#16 = 0x0000#16 → decode w = .nop) ∧
    (w &&& 0xC000#16 = 0x4000#16 →
      decode w = .set (BitVec.ofNat 6 (w.toNat / 2 ^ 8)) (BitVec.ofNat 8 w.toNat)) ∧
    (w &&& 0xC000#16 = 0x8000#16 → decode w = .update) ∧
    (w &&& 0xC000#16 = 0xC000#16 → decode w = .rsvd) ∧
    (w &&& 0xC000#16 = 0x0000#16 ∨ w &&& 0xC000#16 = 0x4000#16 ∨ w &&& 0xC000#16 = 0x8000#16 ∨ w &&& 0xC000#16 = 0xC000#16)

/-- Decoding and encoding agree, both ways: every instruction with every operand comes back from its word and from its
ports (TICK has no word, R88); every word comes back from its instruction, but for the bits R86 says are ignored, which
the encoder writes 0; and the opcode table's numbering reads the same. -/
def Obligations.DecodeEncodeRoundTrip : Prop :=
  (∀ i : Instr, decodeSample (encodeSample i) = some i) ∧
  (∀ (i : Instr) (w : Word), encode i = some w → decode w = i) ∧
  (∀ i : Instr, encode i = none ↔ i = .tick) ∧
  (∀ w : Word, encode (decode w) = some (if w &&& 0xC000#16 = 0x4000#16 then w else w &&& 0xC000#16)) ∧
  (∀ w : Word, decodeTableWord 16 w.toNat = some (decode w))

/-- 30_encoding.md R86: bits 13..0 of NOP, UPDATE and reserved words change nothing the machine does. -/
def Obligations.IgnoredBitsHaveNoEffect : Prop :=
  ∀ (s : State) (w w' : Word),
    w &&& 0xC000#16 ≠ 0x4000#16 → w' &&& 0xC000#16 = w &&& 0xC000#16 →
    step (s.presenting w') = step (s.presenting w) ∧ encode (decode w') = some (w &&& 0xC000#16)

/-- 10_state.md R23: with `cmd_valid = 0` the word on `cmd` is ignored. -/
def Obligations.CommandIgnoredWhenNotValid : Prop :=
  ∀ (s : State) (e : Sample) (w : Word) (rest : List Sample),
    e.cmdValid = false →
    step { s with inputs := { e with cmd := w } :: rest } = step { s with inputs := e :: rest }

/-- 30_encoding.md R91, R92: which operands each item may have ("other values are an assembly error"), and, item by item, the
ports an accepted item drives, one sample an edge, and the instruction its word decodes to.  A `.word` is that word. -/
def Obligations.AssembledCommandsDecode : Prop :=
  ∀ (c : Config) (pin value w n : Nat),
    let command (x : Nat) (tick : Bool) : Sample :=
      { rst := false, cmdValid := true, cmd := BitVec.ofNat 16 x, tick := tick }
    let setting (p v : Nat) : Instr := .set (BitVec.ofNat 6 p) (BitVec.ofNat 8 v)
    (((AsmItem.set pin value).wellFormed = true ↔ pin ≤ 63 ∧ value ≤ 255) ∧
      ((AsmItem.word w).wellFormed = true ↔ w ≤ 0xFFFF) ∧
      ((AsmItem.on pin).wellFormed = true ↔ pin ≤ 63) ∧ ((AsmItem.off pin).wellFormed = true ↔ pin ≤ 63) ∧
      ((AsmItem.setAll value).wellFormed = true ↔ value ≤ 255) ∧
      ((AsmItem.setTick pin value).wellFormed = true ↔ pin ≤ 63 ∧ value ≤ 255)) ∧
    (AsmItem.nop.samples c = [command 0x0000 false] ∧ decodeSample (command 0x0000 false) = some .nop) ∧
    ((AsmItem.set pin value).wellFormed = true →
      (AsmItem.set pin value).samples c = [command (0x4000 + 256 * pin + value) false] ∧
      decodeSample (command (0x4000 + 256 * pin + value) false) = some (setting pin value)) ∧
    (AsmItem.update.samples c = [command 0x8000 false] ∧ decodeSample (command 0x8000 false) = some .update) ∧
    ((AsmItem.word w).wellFormed = true →
      (AsmItem.word w).samples c = [command w false] ∧ (command w false).cmd.toNat = w) ∧
    (AsmItem.tick.samples c = [{ Sample.quiet with tick := true }] ∧
      decodeSample { Sample.quiet with tick := true } = some .tick) ∧
    AsmItem.reset.samples c = [{ Sample.quiet with rst := true }] ∧
    ((AsmItem.on pin).wellFormed = true →
      (AsmItem.on pin).samples c = [command (0x4000 + 256 * pin + 255) false] ∧
      decodeSample (command (0x4000 + 256 * pin + 255) false) = some (setting pin 255)) ∧
    ((AsmItem.off pin).wellFormed = true →
      (AsmItem.off pin).samples c = [command (0x4000 + 256 * pin) false] ∧
      decodeSample (command (0x4000 + 256 * pin) false) = some (setting pin 0)) ∧
    ((AsmItem.setAll value).wellFormed = true →
      (AsmItem.setAll value).samples c =
        (List.range (8 * c.nReg)).map (fun p => command (0x4000 + 256 * p + value) false) ∧
      ((AsmItem.setAll value).samples c).map decodeSample =
        (List.range (8 * c.nReg)).map (fun p => some (setting p value))) ∧
    (AsmItem.wait n).samples c = List.replicate n { rst := false, cmdValid := false, cmd := 0, tick := false } ∧
    (AsmItem.tickUpdate.samples c = [command 0x8000 true] ∧ decodeSample (command 0x8000 true) = some .update) ∧
    ((AsmItem.setTick pin value).wellFormed = true →
      (AsmItem.setTick pin value).samples c = [command (0x4000 + 256 * pin + value) true] ∧
      decodeSample (command (0x4000 + 256 * pin + value) true) = some (setting pin value))

/-- A step at an edge with `rst = 0` is `exec` of the command presented, else of TICK, with nothing around it; an edge that
presents nothing is the idle edge. -/
def Obligations.StepRunsDecodedInstruction : Prop :=
  ∀ s : State, s.sample.rst = false →
    (s.sample.cmdValid = true → step s = exec (decode s.sample.cmd) s) ∧
    (s.sample.cmdValid = false → s.sample.tick = true → step s = exec .tick s) ∧
    (s.sample.cmdValid = false → s.sample.tick = false → step s = idleEdge s)

/-! ## Parameters and reset -/

/-- 00_scope.md R6, R7: an instance exists exactly for N_REG in 1..8 and RES in 2..255. -/
def Obligations.InstanceExistsExactlyInRange : Prop :=
  ∀ nReg res : Nat,
    (1 ≤ nReg ∧ nReg ≤ 8 ∧ 2 ≤ res ∧ res ≤ 255 →
      ∃ c : Config, Config.build? nReg res = some c ∧ c.nReg = nReg ∧ c.res = res) ∧
    (¬(1 ≤ nReg ∧ nReg ≤ 8 ∧ 2 ≤ res ∧ res ≤ 255) → Config.build? nReg res = none)

/-- 10_state.md R48: after a reset edge, of every instance and from every state, every element and every output. -/
def Obligations.ResetStateValues : Prop :=
  ∀ s : State, s.sample.rst = true →
    ∃ u, step s = .next u ∧
      (∀ t r : Nat, matRead u.mem t r = 0x00) ∧
      u.time = 0 ∧ u.seq = .idle ∧ u.ri = 0 ∧ u.bi = 0 ∧ u.ph = false ∧ u.sb = 0x00 ∧
      u.pend = false ∧ u.errArg = false ∧ u.errCmd = false ∧ u.errOvr = false ∧
      srData u = false ∧ srClk u = false ∧ srLatch u = false ∧ busy u = false ∧ status u = 0x00

/-- 70_reset_and_hazards.md R230, R233: an edge with `rst = 1` gives the reset state whatever the state and whatever else the
ports hold; the sample is used up, so nothing of it is deferred. -/
def Obligations.ResetEdgeDominates : Prop :=
  ∀ s : State, s.sample.rst = true →
    step s = .next (State.launch s.cfg s.inputs.tail) ∧
    ∀ i : Instr, exec i s = .next (State.launch s.cfg s.inputs.tail)

/-- 10_state.md R44, 70_reset_and_hazards.md R237: no edge changes the parameters.  The model's own part: an edge uses up
exactly one sample of the host's inputs (log 2). -/
def Obligations.StepKeepsParameters : Prop :=
  ∀ (s t : State), (step s = .next t ∨ ∃ i, exec i s = .next t) →
    t.cfg = s.cfg ∧ t.inputs = s.inputs.tail

/-! ## The duty-matrix encoder (40_encoder.md) -/

/-- 40_encoder.md R100: the scaled threshold is `v * RES / 255` rounded half up, its intermediate fits 16 bits and its
result lies in 0..RES. -/
def Obligations.ScaledIsRoundHalfUp : Prop :=
  ∀ v res : Nat, v ≤ 255 → 2 ≤ res → res ≤ 255 →
    scaled v res = (v * res + 127) / 255 ∧
    scaled v res = (if 255 ≤ 2 * (v * res % 255) then v * res / 255 + 1 else v * res / 255) ∧
    v * res + 127 ≤ 65152 ∧ scaled v res ≤ res

/-- 40_encoder.md R101: an exact tie never arises, so every rounding to nearest gives `scaled`. -/
def Obligations.ScaledHasNoTie : Prop :=
  ∀ v res : Nat,
    (∀ k : Nat, 2 * v * res ≠ 255 * (2 * k + 1)) ∧
    (∀ m : Nat, 2 * (255 * m) ≤ 2 * (v * res) + 255 → 2 * (v * res) ≤ 2 * (255 * m) + 255 → m = scaled v res)

/-- 40_encoder.md R102: endpoints, order, identity at RES = 255, and the smallest v that reaches k. -/
def Obligations.ScaledEndpointsAndOrder : Prop :=
  ∀ res : Nat, 2 ≤ res → res ≤ 255 →
    scaled 0 res = 0 ∧ scaled 255 res = res ∧
    (∀ v v' : Nat, v ≤ v' → v' ≤ 255 → scaled v res ≤ scaled v' res) ∧
    (∀ v : Nat, v ≤ 255 → scaled v 255 = v) ∧
    (∀ k : Nat, 1 ≤ k → k ≤ res → ∀ v : Nat, v ≤ 255 →
      (k ≤ scaled v res ↔ (255 * k - 127 + (res - 1)) / res ≤ v))

/-- 40_encoder.md R109: the bit write is `(x & ~m) | (c ? m : 0)` and the branchless xor form, the same byte. -/
def Obligations.BitWriteForms : Prop :=
  ∀ (x : Byte) (b : Nat) (c : Bool),
    setBit x b c = (x &&& ~~~(1#8 <<< b)) ||| (if c then 1#8 <<< b else 0#8) ∧
    setBit x b c = x ^^^ ((x ^^^ (if c then 0xFF#8 else 0x00#8)) &&& (1#8 <<< b))

/-- 00_scope.md R13: `MatWriteBit(t, r, b, v)` sets one bit of one entry; every other bit and entry reads as before, and
the canonical form is kept. -/
def Obligations.MatWriteBitWritesOneBit : Prop :=
  ∀ (m : Memory) (t r b : Nat) (v : Bool), m.wf = true → r < 8 → b < 8 →
    (matWriteBit m t r b v).wf = true ∧
    ∀ t' r' b' : Nat, r' < 8 → b' < 8 →
      (matRead (matWriteBit m t r b v) t' r').getLsbD b' =
        if t' = t ∧ r' = r ∧ b' = b then v else (matRead m t' r').getLsbD b'

/-- 40_encoder.md R104, R105: SET writes the comparator's pattern into its pin's column, or sets `err_arg` when the pin is
out of range; everything else is what the same edge with NOP does.  The command word is read by its fields. -/
def Obligations.SetWritesColumnOrFlags : Prop :=
  ∀ (s : State) (w : Word), s.Inv → s.sample.rst = false → w &&& 0xC000#16 = 0x4000#16 →
    ∃ (t : State) (m : Memory), exec .nop s = .next t ∧
      (let p : Nat := w.toNat / 2 ^ 8 % 2 ^ 6
       let v : Nat := w.toNat % 2 ^ 8
       let t' : State := if p < 8 * s.cfg.nReg then { t with mem := m } else { t with errArg := true }
       step (s.presenting w) = .next t' ∧
       exec (.set (BitVec.ofNat 6 p) (BitVec.ofNat 8 v)) s = .next t' ∧
       t.mem = s.mem ∧ t.errArg = s.errArg ∧ t.errCmd = s.errCmd ∧
       ∀ slice r b : Nat, slice < s.cfg.res → r < s.cfg.nReg → b < 8 →
         (matRead m slice r).getLsbD b =
           if r = p / 8 ∧ b = p % 8 then decide (slice < (v * s.cfg.res + 127) / 255)
           else (matRead s.mem slice r).getLsbD b)

/-- 40_encoder.md R106: an in-range SET of p leaves the column of every other pin as it was. -/
def Obligations.SetIsolatesOtherPins : Prop :=
  ∀ (s : State) (p : Pin) (v : Byte), s.Inv → s.sample.rst = false → p.toNat < s.cfg.nPins →
    ∃ t, exec (.set p v) s = .next t ∧
      ∀ q slice : Nat, q < s.cfg.nPins → q ≠ p.toNat → slice < s.cfg.res →
        pinColumn t q slice = pinColumn s q slice

/-- 40_encoder.md R107: after an in-range SET of p and until the next SET of p or reset, the slices with p's bit set are
the first `scaled(v)` ones. -/
def Obligations.SetCountAndRun : Prop :=
  ∀ (s u : State) (p : Pin) (v : Byte), s.Inv → s.sample.rst = false → p.toNat < s.cfg.nPins →
    exec (.set p v) s = .next u →
    ∀ (k : Nat) (t : State),
      u.noResetFor k → (∀ e ∈ u.inputs.take k, ¬ setsPin e p) → stepN k u = .next t →
      (∀ slice < s.cfg.res, pinColumn t p.toNat slice = decide (slice < scaled v.toNat s.cfg.res)) ∧
      (List.range s.cfg.res).countP (pinColumn t p.toNat) = scaled v.toNat s.cfg.res

/-- 40_encoder.md R108: a SET of the value a column already holds leaves `M` unchanged, two identical SETs give the matrix
of one, and the column after a SET depends on the value alone. -/
def Obligations.SetIsIdempotent : Prop :=
  ∀ (s : State) (p : Pin) (v : Byte), s.Inv → s.sample.rst = false → p.toNat < s.cfg.nPins →
    ∃ t, exec (.set p v) s = .next t ∧
      ((∀ slice < s.cfg.res, pinColumn s p.toNat slice = decide (slice < scaled v.toNat s.cfg.res)) →
        t.mem = s.mem) ∧
      (∀ t', t.sample.rst = false → exec (.set p v) t = .next t' → t'.mem = t.mem) ∧
      (∀ s₂ t₂ : State, s₂.Inv → s₂.cfg = s.cfg → s₂.sample.rst = false → exec (.set p v) s₂ = .next t₂ →
        ∀ slice < s.cfg.res, pinColumn t₂ p.toNat slice = pinColumn t p.toNat slice)

/-- The frame of SET: every entry but those of the pin's register in the slices 0..RES-1 reads as before (every entry, when
the pin is out of range), and every element but `M` and `err_arg` is what the same edge with NOP leaves. -/
def Obligations.SetFrame : Prop :=
  ∀ (s t : State) (p : Pin) (v : Byte), s.sample.rst = false → exec (.set p v) s = .next t →
    (∀ a : Nat, (∀ slice < s.cfg.res, a ≠ entryKey slice (pinRegister p)) → t.mem.read a = s.mem.read a) ∧
    (¬ p.toNat < s.cfg.nPins → ∀ a : Nat, t.mem.read a = s.mem.read a) ∧
    (p.toNat < s.cfg.nPins → t.errArg = s.errArg) ∧
    ∃ u, exec .nop s = .next u ∧ t = { u with mem := t.mem, errArg := t.errArg }

/-- 20_memory.md R63: the matrix is written by an accepted in-range SET and by nothing else at an edge with `rst = 0`, and
a SET writes one bit in each of the RES entries of its pin's register and nothing else of it, all at one edge. -/
def Obligations.OnlySetWritesMatrix : Prop :=
  ∀ (s t : State), s.sample.rst = false → step s = .next t →
    ((∀ p : Pin, p.toNat < s.cfg.nPins → ¬ setsPin s.sample p) → t.mem = s.mem) ∧
    (s.Inv → ∀ (p : Pin) (v : Byte), p.toNat < s.cfg.nPins → s.sample.cmdValid = true →
      decode s.sample.cmd = .set p v →
      ∀ slice r b : Nat, slice < s.cfg.res → r < s.cfg.nReg → b < 8 →
        (matRead t.mem slice r).getLsbD b =
          if r = p.toNat / 8 ∧ b = p.toNat % 8 then decide (slice < scaled v.toNat s.cfg.res)
          else (matRead s.mem slice r).getLsbD b)

/-- 20_memory.md R67: a byte load at the edge that accepts a SET returns the entry as it stood before the edge, at the
start of an update and at the next register alike; the SET's bits are in the matrix after that edge. -/
def Obligations.LoadSeesMatrixBeforeSet : Prop :=
  ∀ (s : State) (p : Pin) (v : Byte), s.Inv → s.sample.rst = false → p.toNat < s.cfg.nPins →
    ∃ t, exec (.set p v) s = .next t ∧
      (∀ slice < s.cfg.res, pinColumn t p.toNat slice = decide (slice < scaled v.toNat s.cfg.res)) ∧
      (s.seq ≠ .shift → (s.pend = true ∨ s.sample.tick = true) →
        t.sb = matRead s.mem (rowAfter s) (s.cfg.nReg - 1)) ∧
      (s.seq = .shift → s.ph = true → s.bi = 7 → 0 < s.ri.toNat →
        t.sb = matRead s.mem s.time.toNat (s.ri.toNat - 1))

/-! ## NOP and the reserved opcode (43_misc_commands.md) -/

/-- 43_misc_commands.md R190: a NOP word, whatever its bits 13..0, gives the next state of the same edge with
`cmd_valid = 0`, and writes no flag of a command and nothing of `M`. -/
def Obligations.NopActsAsNoCommand : Prop :=
  ∀ (s : State) (w : Word), s.Inv → s.sample.rst = false → w &&& 0xC000#16 = 0x0000#16 →
    ∃ t, exec .nop s = .next t ∧ step (s.presenting w) = .next t ∧ step s.withoutCommand = .next t ∧
      t.mem = s.mem ∧ t.errArg = s.errArg ∧ t.errCmd = s.errCmd

/-- 43_misc_commands.md R191: a reserved word, whatever its bits 13..0, sets `err_cmd` and changes nothing else beside what
the same edge with `cmd_valid = 0` does. -/
def Obligations.ReservedSetsErrCmdOnly : Prop :=
  ∀ (s : State) (w : Word), s.Inv → s.sample.rst = false → w &&& 0xC000#16 = 0xC000#16 →
    ∃ t, step s.withoutCommand = .next t ∧
      exec .rsvd s = .next { t with errCmd := true } ∧ step (s.presenting w) = .next { t with errCmd := true }

/-! ## Update requests and arbitration (41_scheduler.md) -/

/-- 41_scheduler.md R135 with 42_sequencer.md R160, R162, R167: an edge at which the sequencer can start. -/
def Obligations.ArbitrationWhenStartable : Prop :=
  ∀ s : State, s.Inv → s.sample.rst = false → s.seq ≠ .shift →
    ∃ t, step s = .next t ∧ t.time.toNat = rowAfter s ∧
      (1 ≤ edgeDemand s →
        t.seq = .shift ∧ t.ri.toNat = s.cfg.nReg - 1 ∧ t.bi = 0 ∧ t.ph = false ∧
        t.sb = matRead s.mem (rowAfter s) (s.cfg.nReg - 1) ∧
        t.pend = decide (2 ≤ edgeDemand s) ∧ t.errOvr = (s.errOvr || decide (3 ≤ edgeDemand s))) ∧
      (edgeDemand s = 0 →
        t.seq = .idle ∧ t.pend = false ∧ t.errOvr = s.errOvr ∧ t.sb = s.sb ∧
        t.ri = 0 ∧ t.bi = 0 ∧ t.ph = false)

/-- 42_sequencer.md R160: IDLE without a request keeps `ri`, `bi`, `ph`, `sb`, whatever they hold. -/
def Obligations.IdleKeepsPosition : Prop :=
  ∀ s : State, s.sample.rst = false → s.seq = .idle → edgeDemand s = 0 →
    ∃ t, step s = .next t ∧ t.seq = .idle ∧ t.ri = s.ri ∧ t.bi = s.bi ∧ t.ph = s.ph ∧ t.sb = s.sb ∧
      srData t = false ∧ srClk t = false ∧ srLatch t = false

/-- 41_scheduler.md R136: requests while a frame is shifted; the frame goes on as it would with no request at all. -/
def Obligations.ArbitrationWhileShifting : Prop :=
  ∀ s : State, s.Inv → s.sample.rst = false → s.seq = .shift →
    ∃ t u, step s = .next t ∧ step { s with pend := false, inputs := [] } = .next u ∧
      t.pend = decide (1 ≤ edgeDemand s) ∧ t.errOvr = (s.errOvr || decide (2 ≤ edgeDemand s)) ∧
      t.seq = u.seq ∧ t.ri = u.ri ∧ t.bi = u.bi ∧ t.ph = u.ph ∧ t.sb = u.sb ∧ t.time = u.time

/-- 41_scheduler.md R132: an UPDATE word, whatever its bits 13..0, is one request beside a TICK of the same edge. -/
def Obligations.UpdateRequestsOneUpdate : Prop :=
  ∀ (s : State) (w : Word), s.Inv → s.sample.rst = false → w &&& 0xC000#16 = 0x8000#16 →
    ∃ t, exec .update s = .next t ∧ step (s.presenting w) = .next t ∧
      t.mem = s.mem ∧ t.errArg = s.errArg ∧ t.errCmd = s.errCmd ∧
      (s.seq ≠ .shift →
        t.seq = .shift ∧ t.ri.toNat = s.cfg.nReg - 1 ∧ t.bi = 0 ∧ t.ph = false ∧ t.time.toNat = rowAfter s ∧
        t.sb = matRead s.mem (rowAfter s) (s.cfg.nReg - 1) ∧
        t.pend = (s.pend || s.sample.tick) ∧ t.errOvr = (s.errOvr || (s.pend && s.sample.tick))) ∧
      (s.seq = .shift → t.pend = true ∧ t.errOvr = (s.errOvr || s.pend || s.sample.tick))

/-- 41_scheduler.md R131: TICK alone is one request and never touches `M`. -/
def Obligations.TickRequestsOneUpdate : Prop :=
  ∀ s : State, s.Inv → s.sample.rst = false → s.sample.cmdValid = false →
    ∃ t, exec .tick s = .next t ∧ step s.withTick = .next t ∧
      t.mem = s.mem ∧ t.errArg = s.errArg ∧ t.errCmd = s.errCmd ∧
      (s.seq ≠ .shift →
        t.seq = .shift ∧ t.ri.toNat = s.cfg.nReg - 1 ∧ t.bi = 0 ∧ t.ph = false ∧ t.time.toNat = rowAfter s ∧
        t.sb = matRead s.mem (rowAfter s) (s.cfg.nReg - 1) ∧ t.pend = s.pend ∧ t.errOvr = s.errOvr) ∧
      (s.seq = .shift → t.pend = true ∧ t.errOvr = (s.errOvr || s.pend))

/-- 41_scheduler.md R130: TICK and UPDATE mean the same request, and 60_exceptions.md R207: a TICK and a command of one edge
both happen: TICK's meaning in any state is the edge with `tick = 1` and the other ports as they are, and with a command
presented at an edge with `tick = 1` it is that command's meaning. -/
def Obligations.TickAndCommandTogether : Prop :=
  (∀ (s : State) (rest : List Sample),
    exec .update { s with inputs := Sample.quiet :: rest } = exec .tick { s with inputs := Sample.quiet :: rest }) ∧
  (∀ s : State, s.sample.rst = false → s.sample.cmdValid = true → s.sample.tick = true →
    exec .tick s = exec (decode s.sample.cmd) s) ∧
  (∀ s : State, exec .tick s = step s.withTick)

/-- 10_state.md R37, R38, R39: each error flag is set by its cause, by nothing else, and cleared by reset only. -/
def Obligations.ErrorFlagsHaveOneCause : Prop :=
  ∀ (s t : State), step s = .next t →
    (s.sample.rst = true → t.errorFree) ∧
    (s.sample.rst = false →
      (t.errArg = true ↔ s.errArg = true ∨ ∃ p : Pin, ¬ p.toNat < 8 * s.cfg.nReg ∧ setsPin s.sample p) ∧
      (t.errCmd = true ↔ s.errCmd = true ∨ (s.sample.cmdValid = true ∧ s.sample.cmd &&& 0xC000#16 = 0xC000#16)) ∧
      (t.errOvr = true ↔ s.errOvr = true ∨ (s.seq = .shift ∧ 2 ≤ edgeDemand s) ∨
        (s.seq ≠ .shift ∧ 3 ≤ edgeDemand s)))

/-- The frame of the instructions that store nothing (NOP, UPDATE, RSVD, and TICK with no command beside it): every entry of
the matrix reads as before; `err_arg` is kept and `err_cmd` too, but for RSVD; the cursor moves only out of LATCH; the
shift byte changes only at a byte load; and during SHIFT all of them move the sequencer alike. -/
def Obligations.FrameOfNonStoring : Prop :=
  ∀ (s t : State) (i : Instr), s.sample.rst = false →
    (i = .nop ∨ i = .update ∨ i = .rsvd ∨ (i = .tick ∧ s.sample.cmdValid = false)) →
    exec i s = .next t →
    (∀ a : Nat, t.mem.read a = s.mem.read a) ∧ t.cfg = s.cfg ∧ t.inputs = s.inputs.tail ∧
    t.errArg = s.errArg ∧ (i ≠ .rsvd → t.errCmd = s.errCmd) ∧
    (s.seq ≠ .latch → t.time = s.time) ∧
    (s.seq = .shift → ¬(s.ph = true ∧ s.bi = 7 ∧ 0 < s.ri.toNat) → t.sb = s.sb) ∧
    (s.seq ≠ .shift → t.seq = .idle → t.sb = s.sb) ∧
    (s.seq = .shift → ∃ u, exec .nop s = .next u ∧
      t = { u with pend := t.pend, errOvr := t.errOvr, errCmd := t.errCmd })

/-! ## The sequencer (42_sequencer.md) -/

/-- 42_sequencer.md R163, R164, R165, R166: the four moves of a running frame, and the lines after them. -/
def Obligations.ShiftMovesByPosition : Prop :=
  ∀ s : State, s.Inv → s.sample.rst = false → s.seq = .shift →
    ∃ t, step s = .next t ∧ t.time = s.time ∧
      (s.ph = false → t.seq = .shift ∧ t.ri = s.ri ∧ t.bi = s.bi ∧ t.ph = true ∧ t.sb = s.sb ∧
        srClk t = true ∧ srData t = srData s) ∧
      (s.ph = true → s.bi.toNat < 7 →
        t.seq = .shift ∧ t.ri = s.ri ∧ t.bi.toNat = s.bi.toNat + 1 ∧ t.ph = false ∧ t.sb = s.sb ∧
        srClk t = false ∧ srData t = s.sb.getLsbD (s.bi.toNat + 1)) ∧
      (s.ph = true → s.bi.toNat = 7 → 0 < s.ri.toNat →
        t.seq = .shift ∧ t.ri.toNat = s.ri.toNat - 1 ∧ t.bi = 0 ∧ t.ph = false ∧
        t.sb = matRead s.mem s.time.toNat (s.ri.toNat - 1)) ∧
      (s.ph = true → s.bi.toNat = 7 → s.ri.toNat = 0 →
        t.seq = .latch ∧ t.ri = 0 ∧ t.bi = 0 ∧ t.ph = false ∧ t.sb = s.sb ∧
        srLatch t = true ∧ srClk t = false ∧ srData t = false)

/-- 41_scheduler.md R138: the cursor advances modulo RES at the edge that leaves LATCH and at no other edge with `rst = 0`. -/
def Obligations.CursorAdvancesAtLatchExit : Prop :=
  ∀ (s t : State), s.time.toNat < s.cfg.res → s.sample.rst = false → step s = .next t →
    (s.seq = .latch → t.time.toNat = (if s.time.toNat = s.cfg.res - 1 then 0 else s.time.toNat + 1) ∧
      t.time.toNat = (s.time.toNat + 1) % s.cfg.res) ∧
    (s.seq ≠ .latch → t.time = s.time)

/-- 41_scheduler.md R140: k advances from row 0 reach row k mod RES, and RES advances return any cursor to its value. -/
def Obligations.CursorFullCycle : Prop :=
  ∀ c : Config,
    (∀ k : Nat, ((advanceCursor c)^[k] 0).toNat = k % c.res) ∧
    (∀ t : BitVec 8, t.toNat < c.res → (advanceCursor c)^[c.res] t = t)

/-- 42_sequencer.md R161, 10_state.md R26: the output lines in each sequencer state. -/
def Obligations.OutputLinesByState : Prop :=
  ∀ s : State,
    (s.seq = .idle → srData s = false ∧ srClk s = false ∧ srLatch s = false ∧ busy s = false) ∧
    (s.seq = .shift → srData s = s.sb.getLsbD s.bi.toNat ∧ srClk s = s.ph ∧ srLatch s = false ∧ busy s = true) ∧
    (s.seq = .latch → srData s = false ∧ srClk s = false ∧ srLatch s = true ∧ busy s = true)

/-- 10_state.md R40: the status word, bit by bit. -/
def Obligations.StatusWordBits : Prop :=
  ∀ s : State,
    (status s).getLsbD 0 = decide (s.seq ≠ .idle) ∧ (status s).getLsbD 1 = s.pend ∧
    (status s).getLsbD 2 = s.errArg ∧ (status s).getLsbD 3 = s.errCmd ∧ (status s).getLsbD 4 = s.errOvr ∧
    (status s).getLsbD 5 = false ∧ (status s).getLsbD 6 = false ∧ (status s).getLsbD 7 = false

/-- 42_sequencer.md R170: within a frame the data line holds its bit through the cycle before the clock rises and the
cycle it is high, and changes only at the edge at which the clock falls. -/
def Obligations.DataStableAroundClock : Prop :=
  ∀ s : State, s.sample.rst = false → s.seq = .shift →
    (s.ph = false → ∃ t, step s = .next t ∧ srClk s = false ∧ srClk t = true ∧ srData t = srData s) ∧
    (∀ t, step s = .next t → srData t ≠ srData s → srClk s = true ∧ srClk t = false)

/-- 42_sequencer.md R173: the latch line is high for one cycle, exactly after the last clock pulse of a frame, and with the
clock low. -/
def Obligations.OneLatchPulsePerFrame : Prop :=
  ∀ (s t : State), step s = .next t →
    (srLatch s = true → srLatch t = false) ∧
    (srLatch t = true →
      s.sample.rst = false ∧ s.seq = .shift ∧ srClk s = true ∧ s.ri = 0 ∧ s.bi = 7 ∧
      srClk t = false ∧ srData t = false) ∧
    (s.sample.rst = false → s.seq = .shift → srClk s = true → s.ri = 0 → s.bi = 7 → srLatch t = true)

/-- 42_sequencer.md R174: where the lines are low, that clock and latch are never high together, and that after a reset all
three stay low until an update starts. -/
def Obligations.QuietLines : Prop :=
  (∀ s : State,
    (s.seq ≠ .shift → srClk s = false ∧ srData s = false) ∧ (s.seq ≠ .latch → srLatch s = false) ∧
    ¬(srClk s = true ∧ srLatch s = true)) ∧
  (∀ (c : Config) (inputs : List Sample) (n : Nat), startCount (State.launch c inputs) n = 0 →
    ∃ t, stepN n (State.launch c inputs) = .next t ∧ srData t = false ∧ srClk t = false ∧ srLatch t = false)

/-- 42_sequencer.md R168 with 20_memory.md R69: from the edge that starts an update, cycle c carries bit
`(c div 2) mod 8` of the byte of register `N_REG-1 - c div 16`, loaded 16 cycles apart from the matrix as it stood just
before each load, the clock high in odd cycles; then one latch cycle. -/
def Obligations.FrameEmitsRow : Prop :=
  ∀ s : State, s.Inv → s.seq ≠ .shift → 1 ≤ edgeDemand s → s.noResetFor (16 * s.cfg.nReg + 1) →
    (∀ c < 16 * s.cfg.nReg, ∃ t u, stepN (c + 1) s = .next t ∧ stepN (16 * (c / 16)) s = .next u ∧
      srData t = (matRead u.mem (rowAfter s) (s.cfg.nReg - 1 - c / 16)).getLsbD (c / 2 % 8) ∧
      srClk t = decide (c % 2 = 1) ∧ srLatch t = false) ∧
    (∃ t, stepN (16 * s.cfg.nReg + 1) s = .next t ∧
      srData t = false ∧ srClk t = false ∧ srLatch t = true)

/-- 20_memory.md R70: when at most one SET is accepted while a frame is emitted, the frame is the row of the matrix before
that SET or the row of the matrix after it. -/
def Obligations.OneSetCannotSplitFrame : Prop :=
  ∀ s : State, s.Inv → s.seq ≠ .shift → 1 ≤ edgeDemand s → s.noResetFor (16 * s.cfg.nReg + 1) →
    (∀ j k : Nat, j < k → k ≤ 16 * s.cfg.nReg → ∀ p q : Pin,
      ¬(setsPin (s.inputs.getD j Sample.quiet) p ∧ setsPin (s.inputs.getD k Sample.quiet) q)) →
    ∃ f : State, stepN (16 * s.cfg.nReg + 1) s = .next f ∧
      ((∀ n < s.cfg.nReg, ∃ u, stepN (16 * n) s = .next u ∧
        matRead u.mem (rowAfter s) (s.cfg.nReg - 1 - n) = matRead s.mem (rowAfter s) (s.cfg.nReg - 1 - n)) ∨
       (∀ n < s.cfg.nReg, ∃ u, stepN (16 * n) s = .next u ∧
        matRead u.mem (rowAfter s) (s.cfg.nReg - 1 - n) = matRead f.mem (rowAfter s) (s.cfg.nReg - 1 - n)))

/-- 42_sequencer.md R172: an update occupies the sequencer for `UPDATE_CYCLES` cycles: position by position through the
frame, one latch cycle, and then the cursor has moved and LATCH is left. -/
def Obligations.UpdateTakesUpdateCycles : Prop :=
  ∀ s : State, s.Inv → s.seq ≠ .shift → 1 ≤ edgeDemand s → s.noResetFor (s.cfg.updateCycles + 1) →
    (∀ c < s.cfg.updateCycles, ∃ t, stepN (c + 1) s = .next t ∧ busy t = true ∧ t.time.toNat = rowAfter s ∧
      (c < 16 * s.cfg.nReg →
        t.seq = .shift ∧ t.ri.toNat = s.cfg.nReg - 1 - c / 16 ∧ t.bi.toNat = c / 2 % 8 ∧
        t.ph = decide (c % 2 = 1)) ∧
      (c = 16 * s.cfg.nReg → t.seq = .latch)) ∧
    (∃ t, stepN (s.cfg.updateCycles + 1) s = .next t ∧ t.seq ≠ .latch ∧
      t.time.toNat = (rowAfter s + 1) % s.cfg.res)

/-- 60_exceptions.md R218: with no further requests the block is IDLE within `2 * UPDATE_CYCLES` cycles, and stays so. -/
def Obligations.IdleWithinTwoUpdates : Prop :=
  ∀ s : State, s.Inv → (∀ e ∈ s.inputs, e.rst = false ∧ sampleRequests e = 0) →
    ∀ k : Nat, 2 * s.cfg.updateCycles ≤ k → ∃ t, stepN k s = .next t ∧ t.seq = .idle ∧ t.pend = false

/-- 41_scheduler.md R144: requests at least `UPDATE_CYCLES` edges apart, one at a time, each start where they arrive; none
ever waits and none is lost. -/
def Obligations.SpacedRequestsNeverOverrun : Prop :=
  ∀ (c : Config) (inputs : List Sample),
    (∀ e ∈ inputs, e.rst = false ∧ sampleRequests e ≤ 1) →
    (∀ j k : Nat, j < k → k < j + c.updateCycles →
      sampleRequests (inputs.getD j Sample.quiet) = 0 ∨ sampleRequests (inputs.getD k Sample.quiet) = 0) →
    ∀ (k : Nat), ∃ t, stepN k (State.launch c inputs) = .next t ∧ t.pend = false ∧ t.errOvr = false ∧
      (sampleRequests (inputs.getD k Sample.quiet) = 1 → t.seq ≠ .shift)

/-- 41_scheduler.md R144: requests at a period below `UPDATE_CYCLES`, and no others, set `err_ovr`, whatever the state they
begin in; within `2 * P * UPDATE_CYCLES` edges. -/
def Obligations.FastPeriodicRequestsOverrun : Prop :=
  ∀ (s : State) (period : Nat), s.Inv → 1 ≤ period → period < s.cfg.updateCycles →
    (∀ j < 2 * period * s.cfg.updateCycles, (s.inputs.getD j Sample.quiet).rst = false ∧
      sampleRequests (s.inputs.getD j Sample.quiet) = if period ∣ j then 1 else 0) →
    ∃ t, stepN (2 * period * s.cfg.updateCycles) s = .next t ∧ t.errOvr = true

/-- 41_scheduler.md R140: with `k` updates started before it, the next one starts from the row `k` places after the first
one's, modulo RES; and in IDLE the cursor stands there. -/
def Obligations.UpdatesEmitRowsInOrder : Prop :=
  ∀ (s : State) (n : Nat), s.Inv → s.seq ≠ .shift → s.noResetFor n →
    ∃ t, stepN n s = .next t ∧
      (startsAt s n = true → rowAfter t = (rowAfter s + startCount s n) % s.cfg.res) ∧
      (t.seq = .idle → t.time.toNat = (rowAfter s + startCount s n) % s.cfg.res)

/-- 41_scheduler.md R141: over RES consecutive updates, the first starting at edge 0 (L1) and the last at edge `last`, with no
SET of pin `p` from L1 to before the last byte load (L2), pin `p`'s bit is 1 in exactly `scaled(v)` of the frames: in those
whose row lies below `scaled(v)`. -/
def Obligations.PinDutyOverCycle : Prop :=
  ∀ (s : State) (p : Pin) (v : Byte) (last : Nat), s.Inv → p.toNat < s.cfg.nPins → s.LastSet p v →
    startsAt s 0 = true → startsAt s last = true → startCount s (last + 1) = s.cfg.res →
    s.noResetFor (last + 16 * s.cfg.nReg + 1) →
    (∀ e ∈ s.inputs.take (last + 16 * (s.cfg.nReg - 1)), ¬ setsPin e p) →
    (∀ k ≤ last, startsAt s k = true →
      frameBit s k p.toNat =
        decide ((rowAfter s + startCount s k) % s.cfg.res < scaled v.toNat s.cfg.res)) ∧
    ((List.range (last + 1)).filter (startsAt s)).countP (fun k => frameBit s k p.toNat) =
      scaled v.toNat s.cfg.res

/-- 42_sequencer.md R180: on every state of the invariant the step is the listing, and every edge has a next state. -/
def Obligations.StepMeetsListing : Prop :=
  ∀ s : State, s.Inv →
    ∃ t, step s = .next t ∧
      t.listing = listingStep s.cfg.nReg s.cfg.res s.listing s.sample.rst s.sample.cmdValid
        s.sample.cmd.toNat s.sample.tick

/-! ## The whole machine -/

/-- 60_exceptions.md R200, R218: on every state of the invariant every instruction and every edge has a next state. -/
def Obligations.NothingEverStops : Prop :=
  ∀ s : State, s.Inv → (∃ t, step s = .next t) ∧ ∀ i : Instr, ∃ t, exec i s = .next t

/-- The model's only stop (log 5; 20_memory.md R62): a byte load of an entry that does not exist; nothing is refused. -/
def Obligations.StopsOnlyAtMissingEntry : Prop :=
  ∀ (s : State) (i : Instr),
    (∀ f, exec i s = .fault f → ∃ t r : Nat, f = .noSuchEntry t r ∧ ¬(t < s.cfg.res ∧ r < s.cfg.nReg)) ∧
    (∀ f, exec i s ≠ .refused f)

/-- The invariant holds at reset, of every instance and whatever the host drives after. -/
def Obligations.ResetMeetsInv : Prop :=
  ∀ (c : Config) (inputs : List Sample), (State.launch c inputs).Inv

/-- Every edge and every instruction keeps the invariant: the cursor in range, the position legal, no request waiting in
IDLE, and the matrix in its canonical form with no entry outside it. -/
def Obligations.StepKeepsInv : Prop :=
  ∀ (s t : State), s.Inv → (step s = .next t ∨ ∃ i, exec i s = .next t) → t.Inv

/-- 10_state.md R46: what holds of every state a run from reset reaches, whatever the host drives. -/
def Obligations.ReachableStatesAreLegal : Prop :=
  ∀ (c : Config) (inputs : List Sample) (k : Nat), ∃ t, stepN k (State.launch c inputs) = .next t ∧
    t.cfg = c ∧ t.time.toNat < c.res ∧ (t.seq = .idle ∨ t.seq = .shift ∨ t.seq = .latch) ∧
    (t.seq = .shift → t.ri.toNat < c.nReg ∧ t.bi.toNat ≤ 7) ∧
    (t.seq ≠ .shift → t.ri = 0 ∧ t.bi = 0 ∧ t.ph = false) ∧
    (t.seq = .idle → t.pend = false)

/-- Every edge and every instruction keeps the thermometer form of every pin's column. -/
def Obligations.StepKeepsThermometer : Prop :=
  ∀ (s t : State), s.Inv → s.Thermometer → (step s = .next t ∨ ∃ i, exec i s = .next t) → t.Thermometer

/-- 10_state.md R47: every reachable state has the form; at reset every threshold is 0, and a SET of a pin makes the pin's
threshold its scaled value. -/
def Obligations.ReachableColumnsAreThermometers : Prop :=
  (∀ (c : Config) (inputs : List Sample) (k : Nat), ∃ t,
    stepN k (State.launch c inputs) = .next t ∧ t.cfg = c ∧ t.Thermometer) ∧
  (∀ (c : Config) (p t : Nat), pinColumn (State.resetOf c) p t = false) ∧
  (∀ (s : State) (p : Pin) (v : Byte), s.Inv → s.sample.rst = false → p.toNat < s.cfg.nPins →
    ∃ t, exec (.set p v) s = .next t ∧
      ∀ slice < s.cfg.res, pinColumn t p.toNat slice = decide (slice < scaled v.toNat s.cfg.res))
end

