-- ==== Sys2Proof/Laws/State.lean ====
section
/-! SUPPORT. One lemma per field per update of the state, all by rfl, so that no proof unfolds a record update. -/

namespace Sys2Proof.Machine

variable (s : State)

@[simp] theorem State.consumed_cfg : (s.consumed).cfg = s.cfg := rfl
@[simp] theorem State.consumed_mem : (s.consumed).mem = s.mem := rfl
@[simp] theorem State.consumed_time : (s.consumed).time = s.time := rfl
@[simp] theorem State.consumed_seq : (s.consumed).seq = s.seq := rfl
@[simp] theorem State.consumed_ri : (s.consumed).ri = s.ri := rfl
@[simp] theorem State.consumed_bi : (s.consumed).bi = s.bi := rfl
@[simp] theorem State.consumed_ph : (s.consumed).ph = s.ph := rfl
@[simp] theorem State.consumed_sb : (s.consumed).sb = s.sb := rfl
@[simp] theorem State.consumed_pend : (s.consumed).pend = s.pend := rfl
@[simp] theorem State.consumed_errArg : (s.consumed).errArg = s.errArg := rfl
@[simp] theorem State.consumed_errCmd : (s.consumed).errCmd = s.errCmd := rfl
@[simp] theorem State.consumed_errOvr : (s.consumed).errOvr = s.errOvr := rfl
@[simp] theorem State.consumed_inputs : (s.consumed).inputs = s.inputs.tail := rfl

@[simp] theorem State.withMem_cfg (m : Memory) : (s.withMem m).cfg = s.cfg := rfl
@[simp] theorem State.withMem_mem (m : Memory) : (s.withMem m).mem = m := rfl
@[simp] theorem State.withMem_time (m : Memory) : (s.withMem m).time = s.time := rfl
@[simp] theorem State.withMem_seq (m : Memory) : (s.withMem m).seq = s.seq := rfl
@[simp] theorem State.withMem_ri (m : Memory) : (s.withMem m).ri = s.ri := rfl
@[simp] theorem State.withMem_bi (m : Memory) : (s.withMem m).bi = s.bi := rfl
@[simp] theorem State.withMem_ph (m : Memory) : (s.withMem m).ph = s.ph := rfl
@[simp] theorem State.withMem_sb (m : Memory) : (s.withMem m).sb = s.sb := rfl
@[simp] theorem State.withMem_pend (m : Memory) : (s.withMem m).pend = s.pend := rfl
@[simp] theorem State.withMem_errArg (m : Memory) : (s.withMem m).errArg = s.errArg := rfl
@[simp] theorem State.withMem_errCmd (m : Memory) : (s.withMem m).errCmd = s.errCmd := rfl
@[simp] theorem State.withMem_errOvr (m : Memory) : (s.withMem m).errOvr = s.errOvr := rfl
@[simp] theorem State.withMem_inputs (m : Memory) : (s.withMem m).inputs = s.inputs := rfl

@[simp] theorem State.withTime_cfg (x : BitVec 8) : (s.withTime x).cfg = s.cfg := rfl
@[simp] theorem State.withTime_mem (x : BitVec 8) : (s.withTime x).mem = s.mem := rfl
@[simp] theorem State.withTime_time (x : BitVec 8) : (s.withTime x).time = x := rfl
@[simp] theorem State.withTime_seq (x : BitVec 8) : (s.withTime x).seq = s.seq := rfl
@[simp] theorem State.withTime_ri (x : BitVec 8) : (s.withTime x).ri = s.ri := rfl
@[simp] theorem State.withTime_bi (x : BitVec 8) : (s.withTime x).bi = s.bi := rfl
@[simp] theorem State.withTime_ph (x : BitVec 8) : (s.withTime x).ph = s.ph := rfl
@[simp] theorem State.withTime_sb (x : BitVec 8) : (s.withTime x).sb = s.sb := rfl
@[simp] theorem State.withTime_pend (x : BitVec 8) : (s.withTime x).pend = s.pend := rfl
@[simp] theorem State.withTime_errArg (x : BitVec 8) : (s.withTime x).errArg = s.errArg := rfl
@[simp] theorem State.withTime_errCmd (x : BitVec 8) : (s.withTime x).errCmd = s.errCmd := rfl
@[simp] theorem State.withTime_errOvr (x : BitVec 8) : (s.withTime x).errOvr = s.errOvr := rfl
@[simp] theorem State.withTime_inputs (x : BitVec 8) : (s.withTime x).inputs = s.inputs := rfl

@[simp] theorem State.withPosition_cfg (q : Seq) (r b : BitVec 3) (h : Bool) : (s.withPosition q r b h).cfg = s.cfg := rfl
@[simp] theorem State.withPosition_mem (q : Seq) (r b : BitVec 3) (h : Bool) : (s.withPosition q r b h).mem = s.mem := rfl
@[simp] theorem State.withPosition_time (q : Seq) (r b : BitVec 3) (h : Bool) : (s.withPosition q r b h).time = s.time := rfl
@[simp] theorem State.withPosition_seq (q : Seq) (r b : BitVec 3) (h : Bool) : (s.withPosition q r b h).seq = q := rfl
@[simp] theorem State.withPosition_ri (q : Seq) (r b : BitVec 3) (h : Bool) : (s.withPosition q r b h).ri = r := rfl
@[simp] theorem State.withPosition_bi (q : Seq) (r b : BitVec 3) (h : Bool) : (s.withPosition q r b h).bi = b := rfl
@[simp] theorem State.withPosition_ph (q : Seq) (r b : BitVec 3) (h : Bool) : (s.withPosition q r b h).ph = h := rfl
@[simp] theorem State.withPosition_sb (q : Seq) (r b : BitVec 3) (h : Bool) : (s.withPosition q r b h).sb = s.sb := rfl
@[simp] theorem State.withPosition_pend (q : Seq) (r b : BitVec 3) (h : Bool) : (s.withPosition q r b h).pend = s.pend := rfl
@[simp] theorem State.withPosition_errArg (q : Seq) (r b : BitVec 3) (h : Bool) : (s.withPosition q r b h).errArg = s.errArg := rfl
@[simp] theorem State.withPosition_errCmd (q : Seq) (r b : BitVec 3) (h : Bool) : (s.withPosition q r b h).errCmd = s.errCmd := rfl
@[simp] theorem State.withPosition_errOvr (q : Seq) (r b : BitVec 3) (h : Bool) : (s.withPosition q r b h).errOvr = s.errOvr := rfl
@[simp] theorem State.withPosition_inputs (q : Seq) (r b : BitVec 3) (h : Bool) : (s.withPosition q r b h).inputs = s.inputs := rfl

@[simp] theorem State.withShiftByte_cfg (x : Byte) : (s.withShiftByte x).cfg = s.cfg := rfl
@[simp] theorem State.withShiftByte_mem (x : Byte) : (s.withShiftByte x).mem = s.mem := rfl
@[simp] theorem State.withShiftByte_time (x : Byte) : (s.withShiftByte x).time = s.time := rfl
@[simp] theorem State.withShiftByte_seq (x : Byte) : (s.withShiftByte x).seq = s.seq := rfl
@[simp] theorem State.withShiftByte_ri (x : Byte) : (s.withShiftByte x).ri = s.ri := rfl
@[simp] theorem State.withShiftByte_bi (x : Byte) : (s.withShiftByte x).bi = s.bi := rfl
@[simp] theorem State.withShiftByte_ph (x : Byte) : (s.withShiftByte x).ph = s.ph := rfl
@[simp] theorem State.withShiftByte_sb (x : Byte) : (s.withShiftByte x).sb = x := rfl
@[simp] theorem State.withShiftByte_pend (x : Byte) : (s.withShiftByte x).pend = s.pend := rfl
@[simp] theorem State.withShiftByte_errArg (x : Byte) : (s.withShiftByte x).errArg = s.errArg := rfl
@[simp] theorem State.withShiftByte_errCmd (x : Byte) : (s.withShiftByte x).errCmd = s.errCmd := rfl
@[simp] theorem State.withShiftByte_errOvr (x : Byte) : (s.withShiftByte x).errOvr = s.errOvr := rfl
@[simp] theorem State.withShiftByte_inputs (x : Byte) : (s.withShiftByte x).inputs = s.inputs := rfl

@[simp] theorem State.arbitrated_cfg (w l : Bool) : (s.arbitrated w l).cfg = s.cfg := rfl
@[simp] theorem State.arbitrated_mem (w l : Bool) : (s.arbitrated w l).mem = s.mem := rfl
@[simp] theorem State.arbitrated_time (w l : Bool) : (s.arbitrated w l).time = s.time := rfl
@[simp] theorem State.arbitrated_seq (w l : Bool) : (s.arbitrated w l).seq = s.seq := rfl
@[simp] theorem State.arbitrated_ri (w l : Bool) : (s.arbitrated w l).ri = s.ri := rfl
@[simp] theorem State.arbitrated_bi (w l : Bool) : (s.arbitrated w l).bi = s.bi := rfl
@[simp] theorem State.arbitrated_ph (w l : Bool) : (s.arbitrated w l).ph = s.ph := rfl
@[simp] theorem State.arbitrated_sb (w l : Bool) : (s.arbitrated w l).sb = s.sb := rfl
@[simp] theorem State.arbitrated_pend (w l : Bool) : (s.arbitrated w l).pend = w := rfl
@[simp] theorem State.arbitrated_errArg (w l : Bool) : (s.arbitrated w l).errArg = s.errArg := rfl
@[simp] theorem State.arbitrated_errCmd (w l : Bool) : (s.arbitrated w l).errCmd = s.errCmd := rfl
@[simp] theorem State.arbitrated_errOvr (w l : Bool) : (s.arbitrated w l).errOvr = (s.errOvr || l) := rfl
@[simp] theorem State.arbitrated_inputs (w l : Bool) : (s.arbitrated w l).inputs = s.inputs := rfl

@[simp] theorem State.raiseErrArg_cfg : (s.raiseErrArg).cfg = s.cfg := rfl
@[simp] theorem State.raiseErrArg_mem : (s.raiseErrArg).mem = s.mem := rfl
@[simp] theorem State.raiseErrArg_time : (s.raiseErrArg).time = s.time := rfl
@[simp] theorem State.raiseErrArg_seq : (s.raiseErrArg).seq = s.seq := rfl
@[simp] theorem State.raiseErrArg_ri : (s.raiseErrArg).ri = s.ri := rfl
@[simp] theorem State.raiseErrArg_bi : (s.raiseErrArg).bi = s.bi := rfl
@[simp] theorem State.raiseErrArg_ph : (s.raiseErrArg).ph = s.ph := rfl
@[simp] theorem State.raiseErrArg_sb : (s.raiseErrArg).sb = s.sb := rfl
@[simp] theorem State.raiseErrArg_pend : (s.raiseErrArg).pend = s.pend := rfl
@[simp] theorem State.raiseErrArg_errArg : (s.raiseErrArg).errArg = true := rfl
@[simp] theorem State.raiseErrArg_errCmd : (s.raiseErrArg).errCmd = s.errCmd := rfl
@[simp] theorem State.raiseErrArg_errOvr : (s.raiseErrArg).errOvr = s.errOvr := rfl
@[simp] theorem State.raiseErrArg_inputs : (s.raiseErrArg).inputs = s.inputs := rfl

@[simp] theorem State.raiseErrCmd_cfg : (s.raiseErrCmd).cfg = s.cfg := rfl
@[simp] theorem State.raiseErrCmd_mem : (s.raiseErrCmd).mem = s.mem := rfl
@[simp] theorem State.raiseErrCmd_time : (s.raiseErrCmd).time = s.time := rfl
@[simp] theorem State.raiseErrCmd_seq : (s.raiseErrCmd).seq = s.seq := rfl
@[simp] theorem State.raiseErrCmd_ri : (s.raiseErrCmd).ri = s.ri := rfl
@[simp] theorem State.raiseErrCmd_bi : (s.raiseErrCmd).bi = s.bi := rfl
@[simp] theorem State.raiseErrCmd_ph : (s.raiseErrCmd).ph = s.ph := rfl
@[simp] theorem State.raiseErrCmd_sb : (s.raiseErrCmd).sb = s.sb := rfl
@[simp] theorem State.raiseErrCmd_pend : (s.raiseErrCmd).pend = s.pend := rfl
@[simp] theorem State.raiseErrCmd_errArg : (s.raiseErrCmd).errArg = s.errArg := rfl
@[simp] theorem State.raiseErrCmd_errCmd : (s.raiseErrCmd).errCmd = true := rfl
@[simp] theorem State.raiseErrCmd_errOvr : (s.raiseErrCmd).errOvr = s.errOvr := rfl
@[simp] theorem State.raiseErrCmd_inputs : (s.raiseErrCmd).inputs = s.inputs := rfl

@[simp] theorem State.afterReset_cfg : s.afterReset.cfg = s.cfg := rfl
@[simp] theorem State.afterReset_mem : s.afterReset.mem = [] := rfl
@[simp] theorem State.afterReset_time : s.afterReset.time = 0 := rfl
@[simp] theorem State.afterReset_seq : s.afterReset.seq = .idle := rfl
@[simp] theorem State.afterReset_ri : s.afterReset.ri = 0 := rfl
@[simp] theorem State.afterReset_bi : s.afterReset.bi = 0 := rfl
@[simp] theorem State.afterReset_ph : s.afterReset.ph = false := rfl
@[simp] theorem State.afterReset_sb : s.afterReset.sb = 0 := rfl
@[simp] theorem State.afterReset_pend : s.afterReset.pend = false := rfl
@[simp] theorem State.afterReset_errArg : s.afterReset.errArg = false := rfl
@[simp] theorem State.afterReset_errCmd : s.afterReset.errCmd = false := rfl
@[simp] theorem State.afterReset_errOvr : s.afterReset.errOvr = false := rfl
@[simp] theorem State.afterReset_inputs : s.afterReset.inputs = s.inputs.tail := rfl

@[simp] theorem State.sample_cons (e : Sample) (rest : List Sample) :
    ({ s with inputs := e :: rest } : State).sample = e := rfl

end Sys2Proof.Machine
end

