-- ==== Sys2Proof/Laws/Memory.lean ====
section
/-! SUPPORT. The memory laws: read after write, writes keep the canonical form, and equal reads make equal memories. -/

namespace Sys2Proof.Machine

/-- A cell's key lies above an optional lower end. -/
def keyAbove (lo : Option Nat) (k : Nat) : Bool :=
  match lo with
  | none => true
  | some a => decide (a < k)

theorem Memory.wfAbove_nil (lo : Option Nat) : Memory.wfAbove lo [] = true := by
  cases lo <;> rfl

theorem Memory.wfAbove_cons (lo : Option Nat) (k : Nat) (v : Byte) (m : Memory) :
    Memory.wfAbove lo ((k, v) :: m) = true ↔
      keyAbove lo k = true ∧ v ≠ unlistedByte ∧ Memory.wfAbove (some k) m = true := by
  cases lo <;> simp [Memory.wfAbove, keyAbove, and_assoc]

theorem keyAbove_trans {lo : Option Nat} {a k : Nat} (h : keyAbove lo a = true) (hk : a < k) :
    keyAbove lo k = true := by
  cases lo with
  | none => rfl
  | some b => simp [keyAbove] at h ⊢; omega

/-- A lower end may be lowered. -/
theorem Memory.wfAbove_lower {lo : Option Nat} {a : Nat} {m : Memory} (h : keyAbove lo a = true)
    (hm : Memory.wfAbove (some a) m = true) : Memory.wfAbove lo m = true := by
  cases m with
  | nil => exact Memory.wfAbove_nil lo
  | cons c m =>
    obtain ⟨k, v⟩ := c
    rw [Memory.wfAbove_cons] at hm ⊢
    exact ⟨keyAbove_trans h (by simpa [keyAbove] using hm.1), hm.2⟩

/-- At or below the lower end nothing is listed. -/
theorem Memory.read_below {m : Memory} {a b : Nat} (h : Memory.wfAbove (some a) m = true) (hb : b ≤ a) :
    m.read b = unlistedByte := by
  induction m generalizing a with
  | nil => rfl
  | cons c m ih =>
    obtain ⟨k, v⟩ := c
    rw [Memory.wfAbove_cons] at h
    have hk : a < k := by simpa [keyAbove] using h.1
    rw [Memory.read, if_neg (by omega)]
    exact ih h.2.2 (by omega)

theorem Memory.read_cons_self (a : Nat) (v : Byte) (m : Memory) (h : m.read a = unlistedByte) :
    (Memory.cons a v m).read a = v := by
  by_cases hv : v = unlistedByte
  · simp [Memory.cons, hv, h]
  · simp [Memory.cons, hv, Memory.read]

theorem Memory.read_cons_other (a b : Nat) (v : Byte) (m : Memory) (h : b ≠ a) :
    (Memory.cons a v m).read b = m.read b := by
  by_cases hv : v = unlistedByte
  · simp [Memory.cons, hv]
  · simp [Memory.cons, hv, Memory.read, Ne.symm h]

/-- Reading where a canonical memory was written gives the value written. -/
theorem Memory.read_write_self {lo : Option Nat} {m : Memory} (h : Memory.wfAbove lo m = true) (a : Nat) (v : Byte) :
    (m.write a v).read a = v := by
  induction m generalizing lo with
  | nil => exact Memory.read_cons_self a v [] rfl
  | cons c m ih =>
    obtain ⟨k, w⟩ := c
    have h' := (Memory.wfAbove_cons lo k w m).1 h
    rw [Memory.write]
    split
    · refine Memory.read_cons_self a v _ ?_
      rw [Memory.read, if_neg (by omega)]
      exact Memory.read_below h'.2.2 (by omega)
    · split
      · refine Memory.read_cons_self a v _ (Memory.read_below h'.2.2 (by omega))
      · rw [Memory.read, if_neg (by omega)]
        exact ih h'.2.2

/-- A write leaves every other key alone. -/
theorem Memory.read_write_other (m : Memory) {a b : Nat} (v : Byte) (h : b ≠ a) :
    (m.write a v).read b = m.read b := by
  induction m with
  | nil => exact Memory.read_cons_other a b v [] h
  | cons c m ih =>
    obtain ⟨k, w⟩ := c
    rw [Memory.write]
    split
    · exact Memory.read_cons_other a b v _ h
    · split
      · rw [Memory.read_cons_other a b v _ h, Memory.read, if_neg (by omega)]
      · by_cases hb : k = b
        · simp [Memory.read, hb]
        · simp [Memory.read, hb, ih]

theorem Memory.wfAbove_consCell {lo : Option Nat} {a : Nat} (v : Byte) {m : Memory} (ha : keyAbove lo a = true)
    (hm : Memory.wfAbove (some a) m = true) : Memory.wfAbove lo (Memory.cons a v m) = true := by
  by_cases hv : v = unlistedByte
  · simpa [Memory.cons, hv] using Memory.wfAbove_lower ha hm
  · simp only [Memory.cons, if_neg hv]
    exact (Memory.wfAbove_cons lo a v m).2 ⟨ha, hv, hm⟩

theorem Memory.wfAbove_write {lo : Option Nat} {m : Memory} (hm : Memory.wfAbove lo m = true) {a : Nat}
    (ha : keyAbove lo a = true) (v : Byte) : Memory.wfAbove lo (m.write a v) = true := by
  induction m generalizing lo with
  | nil => exact Memory.wfAbove_consCell v ha (Memory.wfAbove_nil _)
  | cons c m ih =>
    obtain ⟨k, w⟩ := c
    have h' := (Memory.wfAbove_cons lo k w m).1 hm
    rw [Memory.write]
    split
    · refine Memory.wfAbove_consCell v ha ((Memory.wfAbove_cons _ k w m).2 ⟨?_, h'.2⟩)
      simpa [keyAbove]
    · split
      · next hk => exact Memory.wfAbove_consCell v ha (by rw [hk]; exact h'.2.2)
      · refine (Memory.wfAbove_cons lo k w _).2 ⟨h'.1, h'.2.1, ih h'.2.2 ?_⟩
        simp [keyAbove]; omega

/-- Every write keeps the canonical form. -/
theorem Memory.wf_write {m : Memory} (h : m.wf = true) (a : Nat) (v : Byte) : (m.write a v).wf = true :=
  Memory.wfAbove_write h rfl v

/-- A write lists no cell but old ones and one under its own key. -/
theorem Memory.mem_write {m : Memory} {a : Nat} {v : Byte} {c : Host.Cell} (h : c ∈ m.write a v) : c ∈ m ∨ c.1 = a := by
  have hcons : ∀ {m : Memory}, c ∈ Memory.cons a v m → c ∈ m ∨ c.1 = a := by
    intro m h
    unfold Memory.cons at h
    split at h
    · exact .inl h
    · rcases List.mem_cons.1 h with h | h
      · exact .inr (by rw [h])
      · exact .inl h
  induction m with
  | nil => exact hcons h
  | cons d m ih =>
    obtain ⟨k, w⟩ := d
    rw [Memory.write] at h
    split at h
    · exact hcons h
    · split at h
      · exact (hcons h).imp_left (List.mem_cons_of_mem _)
      · rcases List.mem_cons.1 h with h | h
        · exact .inl (by rw [h]; exact List.mem_cons_self)
        · exact (ih h).imp_left (List.mem_cons_of_mem _)

/-- Two canonical memories that read alike are equal as data. -/
theorem Memory.ext_of_read {lo lo' : Option Nat} {m m' : Memory} (h : Memory.wfAbove lo m = true)
    (h' : Memory.wfAbove lo' m' = true) (e : ∀ a, m.read a = m'.read a) : m = m' := by
  induction m generalizing lo lo' m' with
  | nil =>
    cases m' with
    | nil => rfl
    | cons c m' =>
      obtain ⟨k, v⟩ := c
      have := e k
      simp [Memory.read] at this
      exact absurd this.symm ((Memory.wfAbove_cons _ _ _ _).1 h').2.1
  | cons c m ih =>
    obtain ⟨k, v⟩ := c
    have hm := (Memory.wfAbove_cons _ _ _ _).1 h
    cases m' with
    | nil =>
      have := e k
      simp [Memory.read] at this
      exact absurd this hm.2.1
    | cons c' m' =>
      obtain ⟨k', v'⟩ := c'
      have hm' := (Memory.wfAbove_cons _ _ _ _).1 h'
      have hk : k = k' := by
        rcases Nat.lt_trichotomy k k' with hlt | heq | hlt
        · have := e k
          simp only [Memory.read, if_neg (show ¬ k' = k by omega)] at this
          exact absurd (this.trans (Memory.read_below hm'.2.2 (by omega))) hm.2.1
        · exact heq
        · have := e k'
          simp only [Memory.read, if_neg (show ¬ k = k' by omega)] at this
          exact absurd (this.symm.trans (Memory.read_below hm.2.2 (by omega))) hm'.2.1
      subst hk
      have hv : v = v' := by simpa [Memory.read] using e k
      subst hv
      refine congrArg _ (ih hm.2.2 hm'.2.2 fun a => ?_)
      by_cases ha : k = a
      · rw [Memory.read_below hm.2.2 (by omega), Memory.read_below hm'.2.2 (by omega)]
      · simpa [Memory.read, ha] using e a

end Sys2Proof.Machine
end

