-- ==== Sys2Proof/Laws/Operands.lean ====
section
/-! SUPPORT. What a pin's operands are as numbers, and what writing a column does to every entry. -/

namespace Sys2Proof.Machine

theorem pinRegister_eq (p : Pin) : pinRegister p = p.toNat / 8 := by
  have := p.isLt
  simp [pinRegister, BitVec.extractLsb'_toNat, Nat.shiftRight_eq_div_pow]
  omega

theorem pinBit_eq (p : Pin) : pinBit p = p.toNat % 8 := by
  simp [pinBit, BitVec.extractLsb'_toNat]

theorem pinRegister_lt (p : Pin) : pinRegister p < 8 := by
  have := p.isLt
  rw [pinRegister_eq]; omega

theorem pinBit_lt (p : Pin) : pinBit p < 8 := by
  rw [pinBit_eq]; omega

theorem entryKey_inj {t r t' r' : Nat} (h : r < 8) (h' : r' < 8) (e : entryKey t r = entryKey t' r') :
    t = t' ∧ r = r' := by
  simp only [entryKey] at e; omega

theorem entryKey_div (t : Nat) {r : Nat} (h : r < 8) : entryKey t r / 8 = t := by
  simp only [entryKey]; omega

theorem entryKey_mod (t : Nat) {r : Nat} (h : r < 8) : entryKey t r % 8 = r := by
  simp only [entryKey]; omega

theorem entryExists_iff (c : Config) (t r : Nat) : entryExists c t r = true ↔ t < c.res ∧ r < c.nReg := by
  simp [entryExists]

theorem pinInRange_iff (c : Config) (p : Pin) : pinInRange c p = true ↔ p.toNat < c.nPins := by
  simp [pinInRange]

theorem matWriteBit_wf {m : Memory} (h : m.wf = true) (t r b : Nat) (v : Bool) : (matWriteBit m t r b v).wf = true :=
  Memory.wf_write h _ _

/-- The written entry gets the bit. -/
theorem matRead_matWriteBit_self {m : Memory} (h : m.wf = true) (t r b : Nat) (v : Bool) :
    matRead (matWriteBit m t r b v) t r = setBit (matRead m t r) b v :=
  Memory.read_write_self h _ _

/-- Every other key reads as before. -/
theorem read_matWriteBit_other (m : Memory) {t r a : Nat} (b : Nat) (v : Bool) (h : a ≠ entryKey t r) :
    (matWriteBit m t r b v).read a = m.read a :=
  Memory.read_write_other m _ h

theorem writeColumn_wf {m : Memory} (h : m.wf = true) (r b th n : Nat) : (writeColumn r b th n m).wf = true := by
  induction n generalizing m with
  | zero => exact h
  | succ n ih => exact ih (matWriteBit_wf h _ _ _ _)

/-- Outside the column's entries nothing changes. -/
theorem read_writeColumn_other (m : Memory) (r b th n a : Nat) (h : ∀ t < n, a ≠ entryKey t r) :
    (writeColumn r b th n m).read a = m.read a := by
  induction n generalizing m with
  | zero => rfl
  | succ n ih =>
    rw [writeColumn, ih _ fun t ht => h t (by omega)]
    exact read_matWriteBit_other m b _ (h n (by omega))

/-- Each entry of the column gets the comparator's bit. -/
theorem matRead_writeColumn {m : Memory} (h : m.wf = true) (r b th : Nat) {n t : Nat} (ht : t < n) (hr : r < 8) :
    matRead (writeColumn r b th n m) t r = setBit (matRead m t r) b (colbit th t) := by
  induction n generalizing m with
  | zero => omega
  | succ n ih =>
    rw [writeColumn]
    by_cases hn : t = n
    · subst hn
      rw [matRead, read_writeColumn_other]
      · exact matRead_matWriteBit_self h t r b _
      · intro t' ht' e
        exact absurd (entryKey_inj hr hr e).1 (by omega)
    · rw [ih (matWriteBit_wf h _ _ _ _) (by omega)]
      refine congrArg (fun x => setBit x b (colbit th t)) (read_matWriteBit_other m b _ fun e => hn ?_)
      exact (entryKey_inj hr hr e).1

/-- Entries of other registers are untouched. -/
theorem matRead_writeColumn_other {m : Memory} (b th n : Nat) {t r r' : Nat} (hr : r < 8) (hr' : r' < 8) (h : r' ≠ r) :
    matRead (writeColumn r b th n m) t r' = matRead m t r' :=
  read_writeColumn_other m r b th n _ fun _ _ e => h (entryKey_inj hr' hr e).2

/-- A column written lists no cell but old ones and its own entries. -/
theorem mem_writeColumn {m : Memory} {r b th n : Nat} {c : Host.Cell} (h : c ∈ writeColumn r b th n m) :
    c ∈ m ∨ ∃ t < n, c.1 = entryKey t r := by
  induction n generalizing m with
  | zero => exact .inl h
  | succ n ih =>
    rcases ih h with h | ⟨t, ht, e⟩
    · rcases Memory.mem_write h with h | h
      · exact .inl h
      · exact .inr ⟨n, by omega, h⟩
    · exact .inr ⟨t, by omega, e⟩

end Sys2Proof.Machine
end

