-- ==== Sys2Proof/Laws/Edge.lean ====
section
/-! SUPPORT. What one edge can do, said once: every instruction and every step is a `clockEdge`, and a `clockEdge` that answers
a next state did one of six things. -/

namespace Sys2Proof.Machine

/-- What an instruction writes to `M`, `err_arg` and `err_cmd` at its edge. -/
def instrWrite (s : State) : Instr → State → State
  | .nop => id
  | .set p v => setPin p v
  | .update => id
  | .rsvd => State.raiseErrCmd
  | .tick => portWrite s.sample

/-- The requests of an instruction's edge. -/
def instrRequests (s : State) : Instr → Nat
  | .nop => tickRequests s
  | .set _ _ => tickRequests s
  | .update => tickRequests s + 1
  | .rsvd => tickRequests s
  | .tick => portRequests s.sample + 1

/-- Every instruction is one clock edge. -/
theorem exec_eq_clockEdge (i : Instr) (s : State) : exec i s = clockEdge (instrWrite s i) (instrRequests s i) s := by
  cases i <;> rfl

theorem opField_toNat (w : Word) : (opField w).toNat = w.toNat / 2 ^ 14 := by
  have := w.isLt
  simp [opField, BitVec.extractLsb'_toNat, Nat.shiftRight_eq_div_pow]
  omega

theorem decode_eq_update_iff (w : Word) : decode w = .update ↔ w.toNat / 2 ^ 14 = 2 := by
  rw [← opField_toNat]
  unfold decode
  have h : (opField w).toNat = 2 ↔ opField w = 0b10#2 := by
    constructor
    · intro h; exact BitVec.eq_of_toNat_eq h
    · intro h; rw [h]; rfl
  rw [h]
  split
  · next h => simp [h]
  · split
    · next h => simp [h]
    · split
      · next h => simp [h]
      · next h => simp [h]

theorem commandRequests_decode (w : Word) :
    commandRequests (decode w) = if w.toNat / 2 ^ 14 = 2 then 1 else 0 := by
  by_cases h : w.toNat / 2 ^ 14 = 2
  · rw [if_pos h, (decode_eq_update_iff w).2 h]; rfl
  · rw [if_neg h]
    have hd : decode w ≠ .update := fun e => h ((decode_eq_update_iff w).1 e)
    cases e : decode w <;> first | rfl | exact absurd e hd

theorem decode_ne_tick (w : Word) : decode w ≠ .tick := by
  unfold decode; split <;> [skip; split <;> [skip; split]] <;> simp

theorem sampleRequests_eq (e : Sample) : sampleRequests e = e.tick.toNat + portRequests e := by
  unfold sampleRequests portRequests
  rw [commandRequests_decode]
  cases e.tick <;> cases e.cmdValid <;> simp

/-- A step is the clock edge of what its ports hold. -/
theorem step_eq_clockEdge (s : State) : step s = clockEdge (portWrite s.sample) (sampleRequests s.sample) s := by
  cases hr : s.sample.rst with
  | true => simp [step, decodeSample, idleEdge, clockEdge, hr]
  | false =>
    rw [sampleRequests_eq]
    cases hc : s.sample.cmdValid with
    | true =>
      have hd := decode_ne_tick s.sample.cmd
      have hw : portWrite s.sample = commandWrite (decode s.sample.cmd) := by funext u; simp [portWrite, hc]
      rw [hw]
      simp only [step, decodeSample, hr, hc, portRequests, if_true, Bool.false_eq_true, if_false]
      cases e : decode s.sample.cmd with
      | tick => exact absurd e hd
      | _ => rfl
    | false =>
      cases ht : s.sample.tick with
      | true => simp [step, decodeSample, hr, hc, ht, exec, execTick, portRequests]
      | false =>
        have hw : portWrite s.sample = id := by funext u; simp [portWrite, hc]
        simp [step, decodeSample, hr, hc, ht, idleEdge, hw, portRequests]

theorem clockEdge_reset {write : State → State} {req : Nat} {s : State} (h : s.sample.rst = true) :
    clockEdge write req s = .next s.afterReset := by
  simp [clockEdge, h]

theorem clockEdge_running {write : State → State} {req : Nat} {s : State} (h : s.sample.rst = false) :
    clockEdge write req s = onNext (runSequencer s req) fun u => (write u).consumed := by
  simp [clockEdge, h]

theorem onNext_eq_next {o : Host.Outcome State Fault Refusal} {f : State → State} {t : State} :
    onNext o f = .next t ↔ ∃ u, o = .next u ∧ t = f u := by
  cases o <;> simp [onNext, eq_comm]

theorem loadByte_eq_next {s : State} {t r : Nat} {f : State → State} {u : State} :
    loadByte s t r f = .next u ↔
      entryExists s.cfg t r = true ∧ u = (f s).withShiftByte (matRead s.mem t r) := by
  unfold loadByte
  split
  · next h => simp [h, eq_comm]
  · next h => simp [h]

/-- The state an update starts in (42_sequencer.md R162) with demand `d`. -/
def State.started (s : State) (d : Nat) : State :=
  (((s.withTime (nextCursor s)).withPosition .shift (BitVec.ofNat 3 (s.cfg.nReg - 1)) 0 false).withShiftByte
    (matRead s.mem (nextCursor s).toNat (s.cfg.nReg - 1))).arbitrated (decide (2 ≤ d)) (decide (3 ≤ d))

/-- All an edge of the sequencer can do: start (R162), rest (R160, R167), or one of the four moves of a frame
(R163 to R166). -/
theorem runSequencer_cases {s u : State} {req : Nat} (h : runSequencer s req = .next u) :
    (s.seq ≠ .shift ∧ 1 ≤ demand s req ∧ entryExists s.cfg (nextCursor s).toNat (s.cfg.nReg - 1) = true ∧
      u = s.started (demand s req)) ∨
    (s.seq = .idle ∧ demand s req = 0 ∧ u = s.arbitrated false false) ∨
    (s.seq = .latch ∧ demand s req = 0 ∧
      u = ((s.withTime (advanceCursor s.cfg s.time)).withPosition .idle 0 0 false).arbitrated false false) ∨
    (s.seq = .shift ∧ s.ph = false ∧
      u = (s.withPosition .shift s.ri s.bi true).arbitrated (decide (1 ≤ demand s req)) (decide (2 ≤ demand s req))) ∨
    (s.seq = .shift ∧ s.ph = true ∧ s.bi.toNat < 7 ∧
      u = (s.withPosition .shift s.ri (s.bi + 1) false).arbitrated (decide (1 ≤ demand s req))
        (decide (2 ≤ demand s req))) ∨
    (s.seq = .shift ∧ s.ph = true ∧ s.bi.toNat = 7 ∧ 0 < s.ri.toNat ∧
      entryExists s.cfg s.time.toNat (s.ri.toNat - 1) = true ∧
      u = ((s.withPosition .shift (s.ri - 1) 0 false).withShiftByte
        (matRead s.mem s.time.toNat (s.ri.toNat - 1))).arbitrated (decide (1 ≤ demand s req))
        (decide (2 ≤ demand s req))) ∨
    (s.seq = .shift ∧ s.ph = true ∧ s.bi.toNat = 7 ∧ s.ri.toNat = 0 ∧
      u = (s.withPosition .latch 0 0 false).arbitrated (decide (1 ≤ demand s req)) (decide (2 ≤ demand s req))) := by
  have hserve : ∀ {d : Nat}, serveOrRest s d = .next u →
      (1 ≤ d ∧ entryExists s.cfg (nextCursor s).toNat (s.cfg.nReg - 1) = true ∧ u = s.started d) ∨
      (d = 0 ∧ u = (stayIdle s).arbitrated false false) := by
    intro d h
    unfold serveOrRest at h
    split at h
    · next hd =>
      obtain ⟨w, hw, rfl⟩ := onNext_eq_next.1 h
      obtain ⟨he, rfl⟩ := loadByte_eq_next.1 hw
      exact .inl ⟨hd, he, rfl⟩
    · injection h with h
      exact .inr ⟨by omega, h.symm⟩
  unfold runSequencer at h
  cases hs : s.seq with
  | idle =>
    rw [hs] at h
    rcases hserve h with ⟨hd, he, hu⟩ | ⟨hd, hu⟩
    · exact .inl ⟨by simp, hd, he, hu⟩
    · exact .inr (.inl ⟨rfl, hd, by simpa [stayIdle, hs] using hu⟩)
  | latch =>
    rw [hs] at h
    rcases hserve h with ⟨hd, he, hu⟩ | ⟨hd, hu⟩
    · exact .inl ⟨by simp, hd, he, hu⟩
    · exact .inr (.inr (.inl ⟨rfl, hd, by simpa [stayIdle, nextCursor, hs] using hu⟩))
  | shift =>
    rw [hs] at h
    obtain ⟨w, hw, rfl⟩ := onNext_eq_next.1 h
    have hb := s.bi.isLt
    unfold shiftOn at hw
    split at hw
    · next hp => injection hw with hw; subst hw; simp [hp]
    · next hp =>
      have hp : s.ph = true := by simpa using hp
      split at hw
      · next hbi => injection hw with hw; subst hw; simp [hp, hbi]
      · next hbi =>
        split at hw
        · next hri =>
          obtain ⟨he, rfl⟩ := loadByte_eq_next.1 hw
          simp [hp, hri, he, show s.bi.toNat = 7 by omega]
        · next hri =>
          injection hw with hw
          subst hw
          simp [hp, show s.bi.toNat = 7 by omega, show s.ri.toNat = 0 by omega]

/-- On the invariant the sequencer always goes on: the entries it loads exist. -/
theorem runSequencer_next {s : State} (hs : s.Inv) (req : Nat) : ∃ u, runSequencer s req = .next u := by
  have hn := s.cfg.nReg_legal
  have hr := s.cfg.res_legal
  have hcur : (nextCursor s).toNat < s.cfg.res := by
    have ht := hs.time_lt
    unfold nextCursor
    split
    · unfold advanceCursor
      split
      · simp; omega
      · rw [BitVec.toNat_add]; simp; omega
    · exact ht
    · exact ht
  have hserve : ∀ d, ∃ u, serveOrRest s d = .next u := by
    intro d
    unfold serveOrRest
    split
    · refine ⟨_, onNext_eq_next.2 ⟨_, loadByte_eq_next.2 ⟨?_, rfl⟩, rfl⟩⟩
      exact (entryExists_iff _ _ _).2 ⟨hcur, by omega⟩
    · exact ⟨_, rfl⟩
  unfold runSequencer
  cases hq : s.seq with
  | idle => exact hserve _
  | latch => exact hserve _
  | shift =>
    have hri := hs.ri_lt hq
    have : ∃ u, shiftOn s = .next u := by
      unfold shiftOn
      split
      · exact ⟨_, rfl⟩
      · split
        · exact ⟨_, rfl⟩
        · split
          · refine ⟨_, loadByte_eq_next.2 ⟨(entryExists_iff _ _ _).2 ⟨hs.time_lt, by omega⟩, rfl⟩⟩
          · exact ⟨_, rfl⟩
    obtain ⟨u, hu⟩ := this
    exact ⟨_, onNext_eq_next.2 ⟨u, hu, rfl⟩⟩

/-- On the invariant a running edge is: sequencer, then the command's writes, then the sample is used up. -/
theorem clockEdge_next {write : State → State} {req : Nat} {s : State} (hs : s.Inv) (h : s.sample.rst = false) :
    ∃ u, runSequencer s req = .next u ∧ clockEdge write req s = .next (write u).consumed := by
  obtain ⟨u, hu⟩ := runSequencer_next hs req
  exact ⟨u, hu, by rw [clockEdge_running h, hu]; rfl⟩

/-- The sequencer writes neither the parameters nor `M`, `err_arg`, `err_cmd` nor the inputs (70_reset_and_hazards.md R241). -/
theorem runSequencer_keeps {s u : State} {req : Nat} (h : runSequencer s req = .next u) :
    u.cfg = s.cfg ∧ u.mem = s.mem ∧ u.errArg = s.errArg ∧ u.errCmd = s.errCmd ∧ u.inputs = s.inputs := by
  rcases runSequencer_cases h with ⟨_, _, _, rfl⟩ | ⟨_, _, rfl⟩ | ⟨_, _, rfl⟩ | ⟨_, _, rfl⟩ | ⟨_, _, _, rfl⟩ |
    ⟨_, _, _, _, _, rfl⟩ | ⟨_, _, _, _, rfl⟩ <;> exact ⟨rfl, rfl, rfl, rfl, rfl⟩

/-- What SET writes, by cases of its pin (40_encoder.md R104, R105). -/
theorem setPin_cases (p : Pin) (v : Byte) (s : State) :
    (p.toNat < s.cfg.nPins ∧
      setPin p v s = s.withMem (writeColumn (pinRegister p) (pinBit p) (scaled v.toNat s.cfg.res) s.cfg.res s.mem)) ∨
    (¬ p.toNat < s.cfg.nPins ∧ setPin p v s = s.raiseErrArg) := by
  unfold setPin
  split
  · next h => exact .inl ⟨(pinInRange_iff _ _).1 h, rfl⟩
  · next h => exact .inr ⟨fun h' => h ((pinInRange_iff _ _).2 h'), rfl⟩

/-- SET writes only `M` and `err_arg`. -/
theorem setPin_keeps (p : Pin) (v : Byte) (s : State) :
    setPin p v s = { s with mem := (setPin p v s).mem, errArg := (setPin p v s).errArg } := by
  rcases setPin_cases p v s with ⟨_, e⟩ | ⟨_, e⟩ <;> rw [e] <;> rfl

/-- What the command port can write: nothing, a SET, or `err_cmd`. -/
theorem portWrite_cases (e : Sample) (u : State) :
    portWrite e u = u ∨
    (∃ p v, e.cmdValid = true ∧ decode e.cmd = .set p v ∧ portWrite e u = setPin p v u) ∨
    (e.cmdValid = true ∧ decode e.cmd = .rsvd ∧ portWrite e u = u.raiseErrCmd) := by
  unfold portWrite
  cases e.cmdValid <;> simp
  cases h : decode e.cmd <;> simp [commandWrite]

/-- The command port writes only `M`, `err_arg` and `err_cmd` (70_reset_and_hazards.md R241). -/
theorem portWrite_keeps (e : Sample) (s : State) :
    portWrite e s =
      { s with mem := (portWrite e s).mem, errArg := (portWrite e s).errArg, errCmd := (portWrite e s).errCmd } := by
  rcases portWrite_cases e s with h | ⟨p, v, _, _, h⟩ | ⟨_, _, h⟩ <;> rw [h]
  · rw [setPin_keeps]
  · rfl

/-- An instruction writes only `M`, `err_arg` and `err_cmd` beside the sequencer (70_reset_and_hazards.md R241). -/
theorem instrWrite_keeps (s₀ : State) (i : Instr) (s : State) :
    instrWrite s₀ i s =
      { s with mem := (instrWrite s₀ i s).mem, errArg := (instrWrite s₀ i s).errArg,
               errCmd := (instrWrite s₀ i s).errCmd } := by
  cases i with
  | set p v => simp only [instrWrite]; rw [setPin_keeps]
  | tick => exact portWrite_keeps _ _
  | _ => rfl

/-- The cursor after the edge, as a number (41_scheduler.md R138). -/
theorem nextCursor_toNat {s : State} (h : s.time.toNat < s.cfg.res) : (nextCursor s).toNat = rowAfter s := by
  have := s.cfg.res_legal
  unfold nextCursor rowAfter advanceCursor
  cases s.seq <;> simp
  split <;> simp; omega

theorem rowAfter_lt {s : State} (h : s.time.toNat < s.cfg.res) : rowAfter s < s.cfg.res := by
  have := s.cfg.res_legal
  unfold rowAfter; split <;> [split; skip] <;> omega

end Sys2Proof.Machine
end

