-- ==== Sys2Proof/Laws/Inputs.lean ====
section
/-! SUPPORT. What an edge does with the host's inputs: the sequencer does not look at them, and a step with a word presented is
the edge of its decoded command. -/

namespace Sys2Proof.Machine

/-- Other inputs to come. -/
def State.withInputs (s : State) (x : List Sample) : State := { s with inputs := x }

theorem serveOrRest_withInputs (s : State) (x : List Sample) (d : Nat) :
    serveOrRest (s.withInputs x) d = onNext (serveOrRest s d) fun u => u.withInputs x := by
  have hs : startUpdate (s.withInputs x) = onNext (startUpdate s) fun u => u.withInputs x := by
    unfold startUpdate loadByte
    change (if entryExists s.cfg (nextCursor s).toNat (s.cfg.nReg - 1) then _ else _) = _
    split <;> rfl
  have hr : stayIdle (s.withInputs x) = (stayIdle s).withInputs x := by
    unfold stayIdle
    change (match s.seq with | .latch => _ | .idle => _ | .shift => _) = _
    cases s.seq <;> rfl
  unfold serveOrRest
  rw [hs, hr]
  split
  · cases startUpdate s <;> rfl
  · rfl

theorem shiftOn_withInputs (s : State) (x : List Sample) :
    shiftOn (s.withInputs x) = onNext (shiftOn s) fun u => u.withInputs x := by
  unfold shiftOn loadByte
  change (if s.ph = false then _ else if s.bi.toNat < 7 then _ else if 0 < s.ri.toNat then
    (if entryExists s.cfg s.time.toNat (s.ri.toNat - 1) then _ else _) else _) = _
  split
  · rfl
  · split
    · rfl
    · split
      · split <;> rfl
      · rfl

/-- The sequencer does not look at the inputs. -/
theorem runSequencer_withInputs (s : State) (x : List Sample) (req : Nat) :
    runSequencer (s.withInputs x) req = onNext (runSequencer s req) fun u => u.withInputs x := by
  unfold runSequencer
  rw [serveOrRest_withInputs, shiftOn_withInputs]
  change (match s.seq with | .idle => _ | .latch => _ | .shift => _) = _
  cases s.seq with
  | shift => dsimp only; cases shiftOn s <;> rfl
  | _ => rfl

theorem setPin_withInputs (p : Pin) (v : Byte) (s : State) (x : List Sample) :
    setPin p v (s.withInputs x) = (setPin p v s).withInputs x := by
  unfold setPin
  change (if pinInRange s.cfg p then _ else _) = _
  split <;> rfl

theorem commandWrite_withInputs (i : Instr) (s : State) (x : List Sample) :
    commandWrite i (s.withInputs x) = (commandWrite i s).withInputs x := by
  cases i with
  | set p v => exact setPin_withInputs p v s x
  | _ => rfl

/-- An edge depends on the sample taken only through `rst` and what is passed to it. -/
theorem clockEdge_withInputs {write : State → State} (hw : ∀ u x, write (u.withInputs x) = (write u).withInputs x)
    (req : Nat) (s : State) (e : Sample) (he : e.rst = s.sample.rst) :
    clockEdge write req (s.withInputs (e :: s.inputs.tail)) = clockEdge write req s := by
  unfold clockEdge
  rw [runSequencer_withInputs]
  have : (s.withInputs (e :: s.inputs.tail)).sample = e := rfl
  rw [this, he]
  split
  · rfl
  · cases h : runSequencer s req with
    | next u =>
      have hin := (runSequencer_keeps h).2.2.2.2
      have hwin : (write u).inputs = u.inputs := by
        have := congrArg State.inputs (hw u u.inputs)
        exact this
      have e : ∀ z : State, z.consumed = z.withInputs z.inputs.tail := fun _ => rfl
      simp only [onNext, hw, e]
      rw [hwin, hin]; rfl
    | fault => rfl
    | refused => rfl

theorem portWrite_withInputs (e : Sample) (s : State) (x : List Sample) :
    portWrite e (s.withInputs x) = (portWrite e s).withInputs x := by
  unfold portWrite
  split
  · exact commandWrite_withInputs _ s x
  · rfl

/-- A step with the command word `w` presented is the edge of its decoded command. -/
theorem step_presenting (s : State) (w : Word) :
    step (s.presenting w) =
      clockEdge (commandWrite (decode w)) (tickRequests s + commandRequests (decode w)) s := by
  have := clockEdge_withInputs (portWrite_withInputs { s.sample with cmdValid := true, cmd := w })
    (s.sample.tick.toNat + commandRequests (decode w)) s { s.sample with cmdValid := true, cmd := w } rfl
  rw [step_eq_clockEdge, sampleRequests_eq]
  exact this

/-- A step with no command presented is the edge of `tick` alone. -/
theorem step_withoutCommand (s : State) : step s.withoutCommand = clockEdge id (tickRequests s) s := by
  have := clockEdge_withInputs (portWrite_withInputs { s.sample with cmdValid := false })
    (s.sample.tick.toNat) s { s.sample with cmdValid := false } rfl
  rw [step_eq_clockEdge, sampleRequests_eq]
  exact this

end Sys2Proof.Machine
end

