-- ==== Sys2Proof/Laws/PerInstr.lean ====
section
/-! SUPPORT. One lemma per constructor: the word an instruction encodes to lies in its row of the opcode table
(30_encoding.md R84), with the bits a format-N word ignores written 0 (R86, R91). -/

/-- The `match` column of the opcode table; TICK has no word (30_encoding.md R88). -/
def Sys2Proof.Laws.OpcodeRow.rowMatch : Sys2Proof.Instr → Option Sys2Proof.Word
  | .nop => some 0x0000#16
  | .set _ _ => some 0x4000#16
  | .update => some 0x8000#16
  | .rsvd => some 0xC000#16
  | .tick => none

/-- The word, masked with the row's mask 0xC000, is the row's match; a row without a word has no encoding. -/
def Sys2Proof.Laws.OpcodeRow.Statement (i : Sys2Proof.Instr) : Prop :=
  (Sys2Proof.encode i).map (fun w => w &&& 0xC000#16) = Sys2Proof.Laws.OpcodeRow.rowMatch i

theorem Sys2Proof.Laws.OpcodeRow.nop : Sys2Proof.Laws.OpcodeRow.Statement .nop := rfl

theorem Sys2Proof.Laws.OpcodeRow.set (pin : Sys2Proof.Pin) (val : Sys2Proof.Byte) :
    Sys2Proof.Laws.OpcodeRow.Statement (.set pin val) := by
  refine congrArg some (BitVec.eq_of_getLsbD_eq fun i hi => ?_)
  simp only [BitVec.getLsbD_and, BitVec.getLsbD_append]
  interval_cases i <;> simp

theorem Sys2Proof.Laws.OpcodeRow.update : Sys2Proof.Laws.OpcodeRow.Statement .update := rfl

theorem Sys2Proof.Laws.OpcodeRow.rsvd : Sys2Proof.Laws.OpcodeRow.Statement .rsvd := rfl

theorem Sys2Proof.Laws.OpcodeRow.tick : Sys2Proof.Laws.OpcodeRow.Statement .tick := rfl
end

