-- ==== Sys2Proof/Laws/Run.lean ====
section
/-! SUPPORT. Runs of several edges: one edge more at either end, two runs joined, and counting the updates that start. -/

namespace Sys2Proof.Machine

theorem stepN_succ_of_step {s u : State} (h : step s = .next u) (k : Nat) : stepN (k + 1) s = stepN k u := by
  simp [stepN, h]

/-- A run that goes on `k` edges, and then any more. -/
theorem stepN_add {k : Nat} {s t : State} (h : stepN k s = .next t) (j : Nat) : stepN (k + j) s = stepN j t := by
  induction k generalizing s with
  | zero => injection h with h; rw [Nat.zero_add, h]
  | succ k ih =>
    unfold stepN at h
    rw [Nat.add_right_comm, stepN]
    cases hu : step s with
    | next u => rw [hu] at h; exact ih h
    | fault r => rw [hu] at h; nomatch h
    | refused r => rw [hu] at h; nomatch h

/-- The last edge of a run is a step. -/
theorem stepN_last {k : Nat} {s t : State} (h : stepN k s = .next t) : stepN (k + 1) s = step t := by
  rw [stepN_add h, stepN]
  cases step t <;> rfl

theorem startsAt_of_stepN {s t : State} {k : Nat} (h : stepN k s = .next t) :
    startsAt s k = decide (t.sample.rst = false ∧ t.seq ≠ .shift ∧ 1 ≤ edgeDemand t) := by
  rw [startsAt, h]

theorem startCount_succ (s : State) (n : Nat) :
    startCount s (n + 1) = startCount s n + if startsAt s n then 1 else 0 := by
  rw [startCount, List.range_succ, List.countP_append]
  simp [startCount, List.countP_singleton]

theorem noResetFor_mono {s : State} {n m : Nat} (h : s.noResetFor n) (hm : m ≤ n) : s.noResetFor m :=
  fun e he => h e (List.take_subset_take_left s.inputs hm he)

end Sys2Proof.Machine
end

