-- ==== Sys2Proof/Tests/Slice0.lean ====
section
/-! SUPPORT. Tests with expected results from spec/95_test_vectors.md and hand calculation, and for every obligation with
hypotheses a witness that meets them. -/

namespace Sys2Proof.Tests

open Sys2Proof Sys2Proof.Machine

/-! ## Well-formedness: one ill-formed term per check (30_encoding.md R91, R93) -/

theorem test_wf_set_accepts : (AsmItem.set 63 255).wellFormed = true := by decide
theorem test_wf_set_pin : (AsmItem.set 64 0).wellFormed = false := by decide
theorem test_wf_set_value : (AsmItem.set 0 256).wellFormed = false := by decide
theorem test_wf_word : (AsmItem.word 0x10000).wellFormed = false := by decide
theorem test_wf_on : (AsmItem.on 64).wellFormed = false := by decide
theorem test_wf_off : (AsmItem.off 64).wellFormed = false := by decide
theorem test_wf_setAll : (AsmItem.setAll 256).wellFormed = false := by decide
theorem test_wf_setTick_pin : (AsmItem.setTick 64 0).wellFormed = false := by decide
theorem test_wf_setTick_value : (AsmItem.setTick 0 256).wellFormed = false := by decide

/-- Two command words at one edge are refused; a command and an event together are not. -/
theorem test_wf_program :
    programWellFormed Config.example2x10 [⟨1, [.set 0 255, .update]⟩] = false ∧
    programWellFormed Config.example2x10 [⟨1, [.set 0 255, .tick]⟩] = true := by decide

/-- An instance outside the legal ranges is refused (00_scope.md R6, R7). -/
theorem test_build_refuses : Config.build? 9 10 = none ∧ Config.build? 0 10 = none ∧
    Config.build? 1 1 = none ∧ Config.build? 1 256 = none := by decide

/-! ## Decoding: words written out bit by bit from 30_encoding.md R82, R83 -/

theorem test_decode_nop : decode 0b0011111111111111#16 = .nop := by decide
/-- `SET 3, 128` (40_encoder.md R104's example, 0x4380). -/
theorem test_decode_set : decode 0b0100001110000000#16 = .set 3 128 := by decide
/-- `SET 9, 64` (V-SET-9, 0x4940). -/
theorem test_decode_set_field_order : decode 0b0100100101000000#16 = .set 9 64 := by decide
theorem test_decode_update : decode 0b1011111111111111#16 = .update := by decide
theorem test_decode_rsvd : decode 0b1100000000000000#16 = .rsvd := by decide
theorem test_decode_table_rows :
    decodeTableWord 16 0x0000 = some .nop ∧ decodeTableWord 16 0x7FFF = some (.set 63 255) ∧
    decodeTableWord 16 0x8000 = some .update ∧ decodeTableWord 16 0xC000 = some .rsvd ∧
    decodeTableWord 0 0 = some .tick ∧ decodeTableWord 17 0 = none := by decide
/-- The encoder's words (30_encoding.md R91; P1 edge 3). -/
theorem test_encode : encode (.set 2 64) = some 0x4240#16 ∧ encode .update = some 0x8000#16 := by decide

/-! ## The assembler (30_encoding.md R91 to R93) -/

theorem test_parse : parseItem "Set 0x3, 128" = some (.set 3 128) ∧ parseItem ".word 0xC000" = some (.word 0xC000) ∧
    parseItem "TICK+UPDATE" = some .tickUpdate ∧ parseItem "SET 3" = none := by decide
/-- P3's edge 1, a SET and a TICK at one edge. -/
theorem test_assemble :
    (parseLine "1: SET 0, 255 & TICK").map (fun l => assemble Config.example2x10 [l]) =
      some [Sample.quiet, { rst := false, cmdValid := true, cmd := 0x40FF, tick := true }] := by decide

/-! ## Rescaling and the comparator (V-ENC-1, V-ENC-3) -/

theorem test_scaled : scaled 63 2 = 0 ∧ scaled 64 2 = 1 ∧ scaled 192 4 = 3 ∧ scaled 43 100 = 17 ∧
    scaled 128 255 = 128 := by decide
theorem test_colbit : colbit 9 8 = true ∧ colbit 9 9 = false ∧ colbit 0 0 = false := by decide

/-! ## One step of each instruction -/

/-- N_REG = 1, RES = 4. -/
def one4 : Config := { nReg := 1, res := 4 }

/-- IDLE with the rows of a one-register matrix, row 0 first, and one sample to come. -/
def idle1 (m : Memory) (e : Sample) : State := { State.launch one4 [e] with mem := m }

def tickSample : Sample := { Sample.quiet with tick := true }

def nextMem (o : Host.Outcome State Fault Refusal) : Option Memory :=
  match o with
  | .next s => some s.mem
  | .fault _ => none
  | .refused _ => none

def nextStatus (o : Host.Outcome State Fault Refusal) : Option (BitVec 8) :=
  match o with
  | .next s => some (status s)
  | .fault _ => none
  | .refused _ => none

/-- `(seq, ri, bi, ph, sb, time, pend)`, the notation of 95_test_vectors.md. -/
def nextPosition (o : Host.Outcome State Fault Refusal) : Option (Seq × Nat × Nat × Bool × Nat × Nat × Bool) :=
  match o with
  | .next s => some (s.seq, s.ri.toNat, s.bi.toNat, s.ph, s.sb.toNat, s.time.toNat, s.pend)
  | .fault _ => none
  | .refused _ => none

/-- V-SET-5: `SET 2, 64` on FF FF FF FF gives FF FB FB FB. -/
theorem test_set_keeps_other_bits :
    nextMem (exec (.set 2 64) (idle1 [(0, 0xFF), (8, 0xFF), (16, 0xFF), (24, 0xFF)] Sample.quiet)) =
      some [(0, 0xFF), (8, 0xFB), (16, 0xFB), (24, 0xFB)] := by decide
/-- V-SET-7: `SET 8, 255` with N_REG = 1 leaves M and sets `err_arg`, status 0x04. -/
theorem test_set_out_of_range :
    nextMem (exec (.set 8 255) (idle1 [] Sample.quiet)) = some [] ∧
    nextStatus (exec (.set 8 255) (idle1 [] Sample.quiet)) = some 0x04 := by decide
/-- V-MSC-5: NOP and TICK in one cycle start an update. -/
theorem test_nop_with_tick : nextStatus (exec .nop (idle1 [] tickSample)) = some 0x01 := by decide
/-- V-MSC-3: 0xC000 from reset gives status 0x08. -/
theorem test_rsvd : nextStatus (exec .rsvd (idle1 [] Sample.quiet)) = some 0x08 := by decide
/-- 41_scheduler.md R131's example on row 0x0F (P1 after edge 5). -/
theorem test_tick_starts :
    nextPosition (exec .tick (idle1 [(0, 0x0F)] Sample.quiet)) = some (.shift, 0, 0, false, 0x0F, 0, false) := rfl

/-- A register-1 byte just shifted out, with a request waiting: N_REG = 2, RES = 4. -/
def shifting (e : Sample) : State :=
  { State.launch { nReg := 2, res := 4 } [e] with
    mem := [(0, 0x01), (1, 0x81)], seq := .shift, ri := 1, bi := 7, ph := true, sb := 0x81, pend := true }

/-- The latch cycle of the last row. -/
def latching (e : Sample) : State :=
  { State.launch { nReg := 2, res := 4 } [e] with
    mem := [(0, 0x01), (1, 0x81)], seq := .latch, time := 3, sb := 0x01, pend := true }

/-- V-SCH-1: SHIFT with pend 1 and one request is an overrun; 42_sequencer.md R165: register 0's byte is loaded. -/
theorem test_update_overrun :
    nextPosition (exec .update (shifting Sample.quiet)) = some (.shift, 0, 0, false, 0x01, 0, true) ∧
    nextStatus (exec .update (shifting Sample.quiet)) = some 0x13 := ⟨rfl, rfl⟩
/-- V-SCH-1, V-SCH-2: LATCH, pend 1, UPDATE and TICK: an update starts from the wrapped cursor, one request is lost. -/
theorem test_update_and_tick_at_latch :
    nextPosition (exec .update (latching tickSample)) = some (.shift, 1, 0, false, 0x81, 0, true) ∧
    nextStatus (exec .update (latching tickSample)) = some 0x13 := ⟨rfl, rfl⟩
/-- V-RST-2: reset ignores the TICK and the command of its edge. -/
theorem test_reset_ignores :
    step (shifting { rst := true, cmdValid := true, cmd := 0x40FF, tick := true }) =
      .next (State.launch { nReg := 2, res := 4 } []) := rfl
/-- The first instruction after reset, placed at the ports, runs (P2's `SET 8, 255`: register 1 bit 0 in all ten rows). -/
theorem test_fetch_after_reset :
    (nextMem (step (State.reset.withFetchWord 16 0x48FF))).map (fun m => (m.length, matRead m 0 1, matRead m 9 1)) =
      some (10, 0x01, 0x01) := by decide

/-! ## Outputs (V-SEQ-3) -/

theorem test_outputs :
    srData { shifting Sample.quiet with sb := 0xA5, bi := 2 } = true ∧
    srData { shifting Sample.quiet with sb := 0xA5, bi := 1 } = false ∧
    srLatch (latching Sample.quiet) = true ∧ srData (latching Sample.quiet) = false := by decide

/-! ## Witnesses: states that meet the hypotheses of the obligations, clause by clause -/

theorem idle1_inv (e : Sample) : (idle1 [(0, 0x0F)] e).Inv :=
  ⟨rfl, (by decide : ∀ c ∈ ([(0, 0x0F)] : Memory), entryExists one4 (c.1 / 8) (c.1 % 8) = true),
    (by decide : 0 < 4), fun h => (nomatch (show Seq.idle = .shift from h)), fun _ => ⟨rfl, rfl, rfl⟩, fun _ => rfl⟩

/-- The matrix of `shifting` and `latching`. -/
theorem mem2_exists : ∀ c ∈ ([(0, 0x01), (1, 0x81)] : Memory),
    entryExists { nReg := 2, res := 4 } (c.1 / 8) (c.1 % 8) = true := by decide

theorem shifting_inv (e : Sample) : (shifting e).Inv :=
  ⟨rfl, mem2_exists, (by decide : 0 < 4), fun _ => (by decide : 1 < 2), fun h => absurd rfl h,
    fun h => nomatch (show Seq.shift = .idle from h)⟩

theorem latching_inv (e : Sample) : (latching e).Inv :=
  ⟨rfl, mem2_exists, (by decide : 3 < 4), fun h => (nomatch (show Seq.latch = .shift from h)), fun _ => ⟨rfl, rfl, rfl⟩,
    fun h => nomatch (show Seq.latch = .idle from h)⟩

/-- Four positions of SHIFT: one for each of 42_sequencer.md R163 to R166. -/
theorem witness_ShiftMovesByPosition :
    (shifting Sample.quiet).Inv ∧ { shifting Sample.quiet with ph := false }.Inv ∧
    { shifting Sample.quiet with bi := 6 }.Inv ∧ { shifting Sample.quiet with ri := 0 }.Inv ∧
    (shifting Sample.quiet).sample.rst = false ∧ (shifting Sample.quiet).seq = .shift ∧
    (shifting Sample.quiet).bi.toNat = 7 ∧ 0 < (shifting Sample.quiet).ri.toNat :=
  ⟨shifting_inv _, ⟨by decide, by decide, by decide, by decide, by decide, by decide⟩,
    ⟨by decide, by decide, by decide, by decide, by decide, by decide⟩,
    ⟨by decide, by decide, by decide, by decide, by decide, by decide⟩, rfl, rfl, by decide, by decide⟩

theorem witness_ArbitrationWhileShifting :
    (shifting tickSample).Inv ∧ (shifting tickSample).sample.rst = false ∧ (shifting tickSample).seq = .shift ∧
    edgeDemand (shifting tickSample) = 2 := ⟨shifting_inv _, rfl, rfl, by decide⟩

/-- Demand 0 and 1 in IDLE, demand 3 in LATCH at the last row. -/
theorem witness_ArbitrationWhenStartable :
    (idle1 [(0, 0x0F)] Sample.quiet).Inv ∧ edgeDemand (idle1 [(0, 0x0F)] Sample.quiet) = 0 ∧
    (idle1 [(0, 0x0F)] tickSample).Inv ∧ edgeDemand (idle1 [(0, 0x0F)] tickSample) = 1 ∧
    (latching { tickSample with cmdValid := true, cmd := 0x8000 }).Inv ∧
    edgeDemand (latching { tickSample with cmdValid := true, cmd := 0x8000 }) = 3 ∧
    (latching { tickSample with cmdValid := true, cmd := 0x8000 }).sample.rst = false ∧
    rowAfter (latching { tickSample with cmdValid := true, cmd := 0x8000 }) = 0 ∧
    (latching Sample.quiet).seq ≠ .shift :=
  ⟨idle1_inv _, by decide, idle1_inv _, by decide, latching_inv _, by decide, rfl, by decide, by decide⟩

theorem witness_IdleKeepsPosition :
    { idle1 [] Sample.quiet with ri := 5, bi := 3, ph := true }.seq = .idle ∧
    edgeDemand { idle1 [] Sample.quiet with ri := 5, bi := 3, ph := true } = 0 ∧
    { idle1 [] Sample.quiet with ri := 5, bi := 3, ph := true }.sample.rst = false := ⟨rfl, by decide, rfl⟩

/-- The last pin in range, and the first out of range: N_REG = 2. -/
theorem witness_SetWritesColumnOrFlags :
    (latching tickSample).Inv ∧ (latching tickSample).sample.rst = false ∧
    (0x4F40#16 &&& 0xC000#16 = 0x4000#16) ∧ (0x4F40 / 2 ^ 8 % 2 ^ 6 = 15) ∧
    (0x5040#16 &&& 0xC000#16 = 0x4000#16) ∧ (0x5040 / 2 ^ 8 % 2 ^ 6 = 16) :=
  ⟨latching_inv _, rfl, by decide, by decide, by decide, by decide⟩

/-- For SetIsolatesOtherPins, SetIsIdempotent, LoadSeesMatrixBeforeSet, ReachableColumnsAreThermometers: the last pin of two
registers, and a pin beside it in the same register. -/
theorem witness_SetIsolatesOtherPins :
    (shifting Sample.quiet).Inv ∧ (shifting Sample.quiet).sample.rst = false ∧
    (15 : Pin).toNat < (shifting Sample.quiet).cfg.nPins ∧ (14 : Nat) < (shifting Sample.quiet).cfg.nPins ∧
    (14 : Nat) ≠ (15 : Pin).toNat ∧ 3 < (shifting Sample.quiet).cfg.res :=
  ⟨shifting_inv _, rfl, by decide, by decide, by decide, by decide⟩

/-- A column that already holds its value: pin 2 of 01 00 00 00 at `SET 2, 0`. -/
theorem witness_SetIsIdempotent :
    (latching Sample.quiet).Inv ∧ (latching Sample.quiet).sample.rst = false ∧
    (2 : Pin).toNat < (latching Sample.quiet).cfg.nPins ∧
    (∀ slice < (latching Sample.quiet).cfg.res,
      pinColumn (latching Sample.quiet) (2 : Pin).toNat slice = decide (slice < scaled (0 : Byte).toNat 4)) ∧
    ∃ t t', exec (.set 2 0) (latching Sample.quiet) = .next t ∧ t.sample.rst = false ∧ exec (.set 2 0) t = .next t' :=
  ⟨latching_inv _, rfl, by decide, by decide, _, _, rfl, rfl, rfl⟩

/-- One quiet edge after the SET. -/
theorem witness_SetCountAndRun :
    ∃ u t, exec (.set 9 64) (latching Sample.quiet) = .next u ∧ (9 : Pin).toNat < (latching Sample.quiet).cfg.nPins ∧
      u.noResetFor 1 ∧ (∀ e ∈ u.inputs.take 1, ¬ setsPin e 9) ∧ stepN 1 u = .next t :=
  ⟨_, _, rfl, by decide, fun e he => (nomatch (show e ∈ ([] : List Sample) from he)),
    fun e he => (nomatch (show e ∈ ([] : List Sample) from he)), rfl⟩

theorem witness_SetFrame :
    ∃ t t', exec (.set 15 255) (shifting Sample.quiet) = .next t ∧ exec (.set 16 255) (shifting Sample.quiet) = .next t' ∧
      (shifting Sample.quiet).sample.rst = false ∧ (15 : Pin).toNat < (shifting Sample.quiet).cfg.nPins ∧
      ¬ (16 : Pin).toNat < (shifting Sample.quiet).cfg.nPins := ⟨_, _, rfl, rfl, rfl, by decide, by decide⟩

/-- An in-range SET presented, and a UPDATE presented (no SET at all). -/
theorem witness_OnlySetWritesMatrix :
    (∃ t, step (shifting { Sample.quiet with cmdValid := true, cmd := 0x4F40 }) = .next t) ∧
    decode 0x4F40 = .set 15 0x40 ∧
    (∃ t, step (shifting { Sample.quiet with cmdValid := true, cmd := 0x8000 }) = .next t) ∧
    ∀ p, ¬ setsPin { Sample.quiet with cmdValid := true, cmd := 0x8000 } p :=
  ⟨⟨_, rfl⟩, by decide, ⟨_, rfl⟩, fun p ⟨_, _, v, h⟩ => by
    have : decode 0x8000 = .update := by decide
    exact Instr.noConfusion (this.symm.trans h)⟩

/-- A load at the start of an update, and one at the next register. -/
theorem witness_LoadSeesMatrixBeforeSet :
    (latching Sample.quiet).Inv ∧ (latching Sample.quiet).seq ≠ .shift ∧ (latching Sample.quiet).pend = true ∧
    (shifting Sample.quiet).Inv ∧ (shifting Sample.quiet).ph = true ∧ (shifting Sample.quiet).bi = 7 ∧
    0 < (shifting Sample.quiet).ri.toNat ∧ (15 : Pin).toNat < (shifting Sample.quiet).cfg.nPins :=
  ⟨latching_inv _, by decide, rfl, shifting_inv _, rfl, rfl, by decide, by decide⟩

theorem witness_MatWriteBitWritesOneBit : Memory.wf [(0, 0x01), (1, 0x81)] = true := by decide

/-- For NopActsAsNoCommand, UpdateRequestsOneUpdate, ReservedSetsErrCmdOnly: words with every ignored bit set. -/
theorem witness_words_with_ignored_bits :
    (shifting tickSample).Inv ∧ (shifting tickSample).sample.rst = false ∧
    0x3FFF#16 &&& 0xC000#16 = 0x0000#16 ∧ 0xBFFF#16 &&& 0xC000#16 = 0x8000#16 ∧ 0xFFFF#16 &&& 0xC000#16 = 0xC000#16 :=
  ⟨shifting_inv _, rfl, by decide, by decide, by decide⟩

theorem witness_IgnoredBitsHaveNoEffect :
    0x8000#16 &&& 0xC000#16 ≠ 0x4000#16 ∧ 0xBFFF#16 &&& 0xC000#16 = 0x8000#16 &&& 0xC000#16 := by decide

theorem witness_CommandIgnoredWhenNotValid : ({ tickSample with cmd := 0x40FF } : Sample).cmdValid = false := rfl

/-- For ScaledIsRoundHalfUp and ScaledEndpointsAndOrder: the ends of the ranges, and a k in 1..RES. -/
theorem witness_ScaledEndpointsAndOrder :
    (255 : Nat) ≤ 255 ∧ (2 : Nat) ≤ 2 ∧ (2 : Nat) ≤ 255 ∧ (1 : Nat) ≤ 2 ∧ (64 : Nat) ≤ 255 ∧ 1 ≤ scaled 64 2 ∧
    ¬ 1 ≤ scaled 63 2 := by decide

theorem witness_CursorFullCycle : (3 : BitVec 8).toNat < one4.res := by decide

/-- Each item with operands, at the top of their ranges. -/
theorem witness_AssembledCommandsDecode :
    (AsmItem.set 63 255).wellFormed = true ∧ (AsmItem.word 0xFFFF).wellFormed = true ∧
    (AsmItem.on 63).wellFormed = true ∧ (AsmItem.off 63).wellFormed = true ∧
    (AsmItem.setAll 255).wellFormed = true ∧ (AsmItem.setTick 63 255).wellFormed = true := by decide

/-- TICK in each sequencer state, no command presented. -/
theorem witness_TickRequestsOneUpdate :
    (idle1 [(0, 0x0F)] tickSample).Inv ∧ (shifting tickSample).Inv ∧ (latching tickSample).Inv ∧
    (shifting tickSample).sample.rst = false ∧ (shifting tickSample).sample.cmdValid = false :=
  ⟨idle1_inv _, shifting_inv _, latching_inv _, rfl, rfl⟩

theorem witness_TickAndCommandTogether :
    (shifting { tickSample with cmdValid := true, cmd := 0x8000 }).sample.rst = false ∧
    (shifting { tickSample with cmdValid := true, cmd := 0x8000 }).sample.cmdValid = true ∧
    (shifting { tickSample with cmdValid := true, cmd := 0x8000 }).sample.tick = true := ⟨rfl, rfl, rfl⟩

/-- The three cases of a step with `rst = 0`. -/
theorem witness_StepRunsDecodedInstruction :
    (idle1 [] { tickSample with cmdValid := true }).sample.cmdValid = true ∧
    (idle1 [] tickSample).sample.cmdValid = false ∧ (idle1 [] tickSample).sample.tick = true ∧
    (idle1 [] Sample.quiet).sample.tick = false := ⟨rfl, rfl, rfl, rfl⟩

theorem witness_InstanceExistsExactlyInRange :
    (Config.build? 8 255).isSome = true ∧ (Config.build? 1 2).isSome = true := by decide

/-- For ResetEdgeDominates and ResetStateValues. -/
theorem witness_ResetEdgeDominates :
    (shifting { tickSample with rst := true }).sample.rst = true := rfl

/-- For StepKeepsParameters, ErrorFlagsHaveOneCause, CursorAdvancesAtLatchExit: next states with and without a reset, from SHIFT
and from LATCH. -/
theorem witness_next_states :
    (∃ t, step (shifting { tickSample with rst := true }) = .next t) ∧ (∃ t, step (shifting tickSample) = .next t) ∧
    (∃ t, step (latching tickSample) = .next t) ∧
    (latching tickSample).time.toNat < (latching tickSample).cfg.res :=
  ⟨⟨_, rfl⟩, ⟨_, rfl⟩, ⟨_, rfl⟩, by decide⟩

/-- The frame's instructions answer next states at a byte load, and from LATCH and IDLE. -/
theorem witness_FrameOfNonStoring :
    (∃ t, exec .nop (shifting Sample.quiet) = .next t) ∧ (∃ t, exec .update (latching Sample.quiet) = .next t) ∧
    (∃ t, exec .rsvd (idle1 [] Sample.quiet) = .next t) ∧ (∃ t, exec .tick (shifting Sample.quiet) = .next t) ∧
    (shifting Sample.quiet).sample.cmdValid = false := ⟨⟨_, rfl⟩, ⟨_, rfl⟩, ⟨_, rfl⟩, ⟨_, rfl⟩, rfl⟩

/-- The data line changes when bit 0 of 0x81 gives way to bit 1, at a falling clock; and a clock phase 0. -/
theorem witness_DataStableAroundClock :
    ∃ t, step { shifting Sample.quiet with bi := 0 } = .next t ∧
      srData t ≠ srData { shifting Sample.quiet with bi := 0 } ∧
      { shifting Sample.quiet with ph := false }.seq = .shift := ⟨_, rfl, by decide, rfl⟩

/-- A latch cycle and its end, and the edge that enters one. -/
theorem witness_OneLatchPulsePerFrame :
    srLatch (latching Sample.quiet) = true ∧ (∃ t, step (latching Sample.quiet) = .next t) ∧
    ∃ t, step { shifting Sample.quiet with ri := 0 } = .next t ∧ srLatch t = true :=
  ⟨rfl, ⟨_, rfl⟩, _, rfl, rfl⟩

/-- For FrameEmitsRow and UpdateTakesUpdateCycles: a start from IDLE with every later edge quiet. -/
theorem witness_FrameEmitsRow :
    (idle1 [(0, 0x0F)] tickSample).Inv ∧ (idle1 [(0, 0x0F)] tickSample).seq ≠ .shift ∧
    1 ≤ edgeDemand (idle1 [(0, 0x0F)] tickSample) ∧ (idle1 [(0, 0x0F)] tickSample).noResetFor 17 ∧
    (idle1 [(0, 0x0F)] tickSample).noResetFor 18 :=
  ⟨idle1_inv _, by decide, by decide, by unfold State.noResetFor; decide, by unfold State.noResetFor; decide⟩

/-- One SET (P5's first) at the edge after the start. -/
theorem witness_OneSetCannotSplitFrame :
    ∃ s : State, s.Inv ∧ s.seq ≠ .shift ∧ 1 ≤ edgeDemand s ∧ s.noResetFor 33 ∧ s.cfg.nReg = 2 ∧
      setsPin (s.inputs.getD 1 Sample.quiet) 8 ∧
      ∀ j k : Nat, j < k → k ≤ 32 → ∀ p q : Pin,
        ¬(setsPin (s.inputs.getD j Sample.quiet) p ∧ setsPin (s.inputs.getD k Sample.quiet) q) :=
  ⟨State.launch { nReg := 2, res := 4 } [tickSample, { Sample.quiet with cmdValid := true, cmd := 0x48FF }],
    ⟨by decide, by decide, by decide, by decide, by decide, by decide⟩, by decide, by decide,
    by unfold State.noResetFor; decide, rfl, ⟨rfl, rfl, 255, by decide⟩, by
      rintro j k hjk _ p q ⟨hp, hq⟩
      match j, k, hjk with
      | 0, _, _ => exact absurd hp.2.1 (by decide)
      | j + 1, k + 2, _ => exact absurd hq.2.1 (by simp [State.launch, Sample.quiet])⟩

/-- A start at the first edge, and IDLE after a whole update: N_REG = 1. -/
theorem witness_UpdatesEmitRowsInOrder :
    (idle1 [(0, 0x0F)] tickSample).Inv ∧ (idle1 [(0, 0x0F)] tickSample).seq ≠ .shift ∧
    (idle1 [(0, 0x0F)] tickSample).noResetFor 18 ∧ startsAt (idle1 [(0, 0x0F)] tickSample) 0 = true ∧
    ∃ t, stepN 18 (idle1 [(0, 0x0F)] tickSample) = .next t ∧ t.seq = .idle :=
  ⟨idle1_inv _, by decide, by unfold State.noResetFor; decide, rfl, _, rfl, rfl⟩

/-- N_REG = 1, RES = 2: after `SET 3, 255` (edge 0 of the run before), two updates started 17 edges apart. -/
def dutyRun : State :=
  State.launch { nReg := 1, res := 2 } (Sample.quiet :: tickSample :: List.replicate 16 Sample.quiet ++ [tickSample])

theorem dutyRun_inv : dutyRun.Inv :=
  ⟨rfl, fun c h => (nomatch (show c ∈ ([] : List Host.Cell) from h)), (by decide : 0 < 2),
    fun h => (nomatch (show Seq.idle = .shift from h)), fun _ => ⟨rfl, rfl, rfl⟩, fun _ => rfl⟩

theorem witness_PinDutyOverCycle :
    ∃ u, exec (.set 3 255) dutyRun = .next u ∧ u.LastSet 3 255 ∧ startsAt u 0 = true ∧ startsAt u 17 = true ∧
      startCount u 18 = u.cfg.res ∧ u.noResetFor (17 + 16 + 1) ∧ ∀ e ∈ u.inputs.take 17, ¬ setsPin e 3 :=
  ⟨_, rfl,
    .inl ⟨dutyRun, _, 0, dutyRun_inv, rfl, rfl, fun e he => (nomatch (show e ∈ ([] : List Sample) from he)),
      fun e he => (nomatch (show e ∈ ([] : List Sample) from he)), rfl⟩,
    rfl, rfl, rfl,
    (by decide : ∀ e ∈ ((tickSample :: List.replicate 16 Sample.quiet ++ [tickSample]).take 34), e.rst = false),
    fun e he h => absurd h.2.1 (by
      rw [(by decide : ∀ e ∈ ((tickSample :: List.replicate 16 Sample.quiet ++ [tickSample]).take 17),
        e.cmdValid = false) e he]
      decide)⟩

/-- A TICK at each of 34 edges: period 1, N_REG = 1. -/
theorem witness_FastPeriodicRequestsOverrun :
    (State.launch one4 (List.replicate 34 tickSample)).Inv ∧
    ∀ j < 34, ((List.replicate 34 tickSample).getD j Sample.quiet).rst = false ∧
      sampleRequests ((List.replicate 34 tickSample).getD j Sample.quiet) = if 1 ∣ j then 1 else 0 :=
  ⟨⟨rfl, fun c h => (nomatch (show c ∈ ([] : List Host.Cell) from h)), (by decide : 0 < 4),
    fun h => (nomatch (show Seq.idle = .shift from h)), fun _ => ⟨rfl, rfl, rfl⟩, fun _ => rfl⟩, by decide⟩

/-- A SET and a quiet edge: no update starts. -/
theorem witness_QuietLines :
    startCount (State.launch one4 [{ Sample.quiet with cmdValid := true, cmd := 0x4080 }]) 2 = 0 := rfl

theorem witness_IdleWithinTwoUpdates :
    (latching Sample.quiet).Inv ∧ ∀ e ∈ (latching Sample.quiet).inputs, e.rst = false ∧ sampleRequests e = 0 :=
  ⟨latching_inv _, by decide⟩

/-- Two TICKs exactly UPDATE_CYCLES = 17 edges apart, N_REG = 1 (V-SCH-3, period 17). -/
theorem witness_SpacedRequestsNeverOverrun :
    ∃ inputs : List Sample, inputs.length = 18 ∧ (∀ e ∈ inputs, e.rst = false ∧ sampleRequests e ≤ 1) ∧
      sampleRequests (inputs.getD 0 Sample.quiet) = 1 ∧ sampleRequests (inputs.getD 17 Sample.quiet) = 1 ∧
      ∀ j < 18, ∀ k < 18, j < k → k < j + one4.updateCycles →
        sampleRequests (inputs.getD j Sample.quiet) = 0 ∨ sampleRequests (inputs.getD k Sample.quiet) = 0 :=
  ⟨tickSample :: List.replicate 16 Sample.quiet ++ [tickSample], rfl, by decide, by decide, by decide, by decide⟩

/-- The stop is reached by a cursor outside the matrix, which no run reaches (log 5). -/
theorem witness_StopsOnlyAtMissingEntry :
    exec .tick { idle1 [] Sample.quiet with time := 4 } = .fault (.noSuchEntry 4 0) := rfl

/-- For StepKeepsInv, and the invariant alone for NothingEverStops and StepMeetsListing. -/
theorem witness_StepKeepsInv :
    (shifting tickSample).Inv ∧ (∃ t, step (shifting tickSample) = .next t) ∧
    (∃ t, exec (.set 9 64) (shifting tickSample) = .next t) := ⟨shifting_inv _, ⟨_, rfl⟩, ⟨_, rfl⟩⟩

theorem witness_StepKeepsThermometer :
    (shifting tickSample).Inv ∧ (shifting tickSample).Thermometer ∧ (∃ t, step (shifting tickSample) = .next t) :=
  ⟨shifting_inv _, by unfold State.Thermometer; decide, ⟨_, rfl⟩⟩

end Sys2Proof.Tests
end

section
/-! The scope's rules about the matrix's bit write (00_scope.md R13) and about which instances exist (R6, R7). -/

namespace Sys2Proof.Machine

/-- The mask `1 << b` of 40_encoder.md R109 holds bit `b` and no other. -/
theorem getLsbD_bitMask (b : Nat) {b' : Nat} (hb' : b' < 8) : (1#8 <<< b).getLsbD b' = decide (b' = b) := by
  rw [BitVec.getLsbD_shiftLeft, BitVec.getLsbD_one, Bool.eq_iff_iff]
  simp only [Bool.and_eq_true, Bool.not_eq_true', decide_eq_true_eq, decide_eq_false_iff_not]
  omega

/-- Reading a bit of a byte after one of its bits was set. -/
theorem getLsbD_setBit (x : Byte) (b : Nat) (v : Bool) {b' : Nat} (hb' : b' < 8) :
    (setBit x b v).getLsbD b' = if b' = b then v else x.getLsbD b' := by
  have hkeep : (x &&& ~~~(1#8 <<< b)).getLsbD b' = (x.getLsbD b' && !decide (b' = b)) := by
    rw [BitVec.getLsbD_and, BitVec.getLsbD_not, getLsbD_bitMask b hb', decide_eq_true hb', Bool.true_and]
  have hput : (if v then 1#8 <<< b else 0#8).getLsbD b' = (v && decide (b' = b)) := by
    cases v
    · simp
    · exact getLsbD_bitMask b hb'
  rw [setBit, BitVec.getLsbD_or, hkeep, hput]
  by_cases h : b' = b <;> simp [h]

/-- Every entry but the one written reads as before. -/
theorem matRead_matWriteBit_other (m : Memory) {t r t' r' : Nat} (b : Nat) (v : Bool) (hr : r < 8) (hr' : r' < 8)
    (h : ¬(t' = t ∧ r' = r)) : matRead (matWriteBit m t r b v) t' r' = matRead m t' r' :=
  read_matWriteBit_other m b v fun e => h (entryKey_inj hr' hr e)

/-- Settles O16: the written entry by `getLsbD_setBit`, every other by the frame of `matWriteBit`. -/
theorem matWriteBitWritesOneBit : Obligations.MatWriteBitWritesOneBit := by
  intro m t r b v hm hr _
  refine ⟨matWriteBit_wf hm t r b v, fun t' r' b' hr' hb' => ?_⟩
  by_cases h : t' = t ∧ r' = r
  · obtain ⟨rfl, rfl⟩ := h
    rw [matRead_matWriteBit_self hm, getLsbD_setBit _ b v hb']
    simp
  · rw [matRead_matWriteBit_other m b v hr hr' h, if_neg fun hall => h ⟨hall.1, hall.2.1⟩]

/-- Numbers in range build the instance they name. -/
theorem build?_eq_some {nReg res : Nat} (hn : 1 ≤ nReg ∧ nReg ≤ 8) (hr : 2 ≤ res ∧ res ≤ 255) :
    Config.build? nReg res = some ⟨nReg, res, hn, hr⟩ := by
  rw [Config.build?, dif_pos hn, dif_pos hr]

/-- An instance that was built has the parameters asked for. -/
theorem eq_of_build?_eq_some {nReg res : Nat} {c : Config} (h : Config.build? nReg res = some c) :
    c.nReg = nReg ∧ c.res = res := by
  unfold Config.build? at h
  split at h
  · split at h
    · cases h
      exact ⟨rfl, rfl⟩
    · cases h
  · cases h

/-- Settles O8: in range by `build?_eq_some`; an instance built out of range would contradict its own legality proofs. -/
theorem instanceExistsExactlyInRange : Obligations.InstanceExistsExactlyInRange := by
  intro nReg res
  constructor
  · rintro ⟨hn, hn', hr, hr'⟩
    exact ⟨_, build?_eq_some ⟨hn, hn'⟩ ⟨hr, hr'⟩, rfl, rfl⟩
  · intro hout
    refine Option.eq_none_iff_forall_ne_some.2 fun c hc => hout ?_
    obtain ⟨rfl, rfl⟩ := eq_of_build?_eq_some hc
    exact ⟨c.nReg_legal.1, c.nReg_legal.2, c.res_legal.1, c.res_legal.2⟩

end Sys2Proof.Machine
end

section
/-! What an edge's parts keep, the edge said once for a step and for an instruction alike, and the invariant of the
reachable states (10_state.md R46). -/

namespace Sys2Proof.Machine

/-- What a command leaves of the state the sequencer answered: that state, a SET of it, or `err_cmd` set in it. -/
def CommandResult (u w : State) : Prop := w = u ∨ (∃ p v, w = setPin p v u) ∨ w = u.raiseErrCmd

theorem portWrite_result (e : Sample) (u : State) : CommandResult u (portWrite e u) :=
  (portWrite_cases e u).imp id (Or.imp (fun ⟨p, v, _, _, h⟩ => ⟨p, v, h⟩) fun h => h.2.2)

theorem instrWrite_result (s : State) (i : Instr) (u : State) : CommandResult u (instrWrite s i u) := by
  cases i with
  | nop => exact .inl rfl
  | set p v => exact .inr (.inl ⟨p, v, rfl⟩)
  | update => exact .inl rfl
  | rsvd => exact .inr (.inr rfl)
  | tick => exact portWrite_result _ u

/-- All an edge can do, be it a step's or an instruction's: a reset, or the sequencer's move, then the command's
writes, then the sample is used up. -/
theorem edge_cases {s t : State} (h : step s = .next t ∨ ∃ i, exec i s = .next t) :
    (s.sample.rst = true ∧ t = s.afterReset) ∨
    (s.sample.rst = false ∧ ∃ req u w, runSequencer s req = .next u ∧ CommandResult u w ∧ t = w.consumed) := by
  have hedge : ∃ write req, (∀ u, CommandResult u (write u)) ∧ clockEdge write req s = .next t := by
    rcases h with h | ⟨i, h⟩
    · exact ⟨_, _, portWrite_result s.sample, step_eq_clockEdge s ▸ h⟩
    · exact ⟨_, _, instrWrite_result s i, exec_eq_clockEdge i s ▸ h⟩
  obtain ⟨write, req, hwrite, h⟩ := hedge
  cases hr : s.sample.rst with
  | true =>
    rw [clockEdge_reset hr] at h
    injection h with h
    exact .inl ⟨rfl, h.symm⟩
  | false =>
    obtain ⟨u, hu, ht⟩ := onNext_eq_next.1 (clockEdge_running hr ▸ h)
    exact .inr ⟨rfl, req, u, write u, hu, hwrite u, ht⟩

theorem setPin_cfg (p : Pin) (v : Byte) (s : State) : (setPin p v s).cfg = s.cfg := by
  rw [setPin_keeps]

theorem setPin_inputs (p : Pin) (v : Byte) (s : State) : (setPin p v s).inputs = s.inputs := by
  rw [setPin_keeps]

theorem CommandResult.cfg {u w : State} (h : CommandResult u w) : w.cfg = u.cfg := by
  obtain rfl | ⟨p, v, rfl⟩ | rfl := h
  · rfl
  · exact setPin_cfg p v u
  · rfl

theorem CommandResult.inputs {u w : State} (h : CommandResult u w) : w.inputs = u.inputs := by
  obtain rfl | ⟨p, v, rfl⟩ | rfl := h
  · rfl
  · exact setPin_inputs p v u
  · rfl

/-- Settles O11: neither the sequencer nor a command writes the parameters or the inputs. -/
theorem stepKeepsParameters : Obligations.StepKeepsParameters := by
  intro s t h
  obtain ⟨-, rfl⟩ | ⟨-, req, u, w, hu, hw, rfl⟩ := edge_cases h
  · exact ⟨rfl, rfl⟩
  · obtain ⟨hcfg, -, -, -, hin⟩ := runSequencer_keeps hu
    exact ⟨hw.cfg.trans hcfg, congrArg List.tail (hw.inputs.trans hin)⟩

/-- Settles O53: the reset state rests in IDLE at row 0 with an empty matrix. -/
theorem resetMeetsInv : Obligations.ResetMeetsInv := by
  intro c inputs
  have hres : 0 < c.res := by have := c.res_legal; omega
  exact
    { mem_wf := rfl
      mem_inside := fun _ hcell => absurd hcell List.not_mem_nil
      time_lt := hres
      ri_lt := fun hq => Seq.noConfusion hq
      position_zero := fun _ => ⟨rfl, rfl, rfl⟩
      idle_pend := fun _ => rfl }

/-- The invariant speaks neither of the command's flags nor of the inputs. -/
theorem State.Inv.withFlagsAndInputs {s : State} (hs : s.Inv) (arg cmd : Bool) (x : List Sample) :
    ({ s with errArg := arg, errCmd := cmd, inputs := x } : State).Inv :=
  ⟨hs.mem_wf, hs.mem_inside, hs.time_lt, hs.ri_lt, hs.position_zero, hs.idle_pend⟩

theorem State.Inv.withMem {s : State} (hs : s.Inv) {m : Memory} (hwf : m.wf = true)
    (hin : ∀ c ∈ m, entryExists s.cfg (c.1 / 8) (c.1 % 8) = true) : (s.withMem m).Inv :=
  ⟨hwf, hin, hs.time_lt, hs.ri_lt, hs.position_zero, hs.idle_pend⟩

/-- A pin in range lives in a register of the chain (20_memory.md R61). -/
theorem pinRegister_lt_nReg {c : Config} {p : Pin} (hp : p.toNat < c.nPins) : pinRegister p < c.nReg := by
  rw [pinRegister_eq]
  simp only [Config.nPins] at hp
  omega

/-- A SET keeps the invariant: it lists no entry but those of its pin's register. -/
theorem State.Inv.setPin {s : State} (hs : s.Inv) (p : Pin) (v : Byte) : (setPin p v s).Inv := by
  obtain ⟨hp, e⟩ | ⟨-, e⟩ := setPin_cases p v s
  · rw [e]
    refine hs.withMem (writeColumn_wf hs.mem_wf _ _ _ _) fun c hc => ?_
    obtain hold | ⟨t, ht, hkey⟩ := mem_writeColumn hc
    · exact hs.mem_inside c hold
    · rw [hkey, entryKey_div t (pinRegister_lt p), entryKey_mod t (pinRegister_lt p), entryExists_iff]
      exact ⟨ht, pinRegister_lt_nReg hp⟩
  · rw [e]
    exact hs.withFlagsAndInputs true s.errCmd s.inputs

theorem CommandResult.inv {u w : State} (h : CommandResult u w) (hu : u.Inv) : w.Inv := by
  obtain rfl | ⟨p, v, rfl⟩ | rfl := h
  · exact hu
  · exact hu.setPin p v
  · exact hu.withFlagsAndInputs u.errArg true u.inputs

/-- The invariant of a state that shifts a frame, from one with the same matrix. -/
theorem State.Inv.of_shift {s u : State} (hs : s.Inv) (hcfg : u.cfg = s.cfg) (hmem : u.mem = s.mem)
    (hq : u.seq = .shift) (htime : u.time.toNat < s.cfg.res) (hri : u.ri.toNat < s.cfg.nReg) : u.Inv where
  mem_wf := hmem ▸ hs.mem_wf
  mem_inside := by rw [hmem, hcfg]; exact hs.mem_inside
  time_lt := hcfg ▸ htime
  ri_lt _ := hcfg ▸ hri
  position_zero hn := absurd hq hn
  idle_pend hi := Seq.noConfusion (hq.symm.trans hi)

/-- The invariant of a state outside SHIFT, from one with the same matrix. -/
theorem State.Inv.of_rest {s u : State} (hs : s.Inv) (hcfg : u.cfg = s.cfg) (hmem : u.mem = s.mem)
    (hq : u.seq ≠ .shift) (htime : u.time.toNat < s.cfg.res) (hpos : u.ri = 0 ∧ u.bi = 0 ∧ u.ph = false)
    (hpend : u.seq = .idle → u.pend = false) : u.Inv where
  mem_wf := hmem ▸ hs.mem_wf
  mem_inside := by rw [hmem, hcfg]; exact hs.mem_inside
  time_lt := hcfg ▸ htime
  ri_lt hn := absurd hn hq
  position_zero _ := hpos
  idle_pend := hpend

/-- The cursor stays below RES (41_scheduler.md R138). -/
theorem nextCursor_lt {s : State} (h : s.time.toNat < s.cfg.res) : (nextCursor s).toNat < s.cfg.res :=
  nextCursor_toNat h ▸ rowAfter_lt h

/-- The register an update starts with, as the 3 bits of `ri` (42_sequencer.md R162). -/
theorem lastRegister_toNat (c : Config) : (BitVec.ofNat 3 (c.nReg - 1)).toNat = c.nReg - 1 := by
  have := c.nReg_legal
  rw [BitVec.toNat_ofNat]
  omega

/-- Every move of the sequencer keeps the invariant. -/
theorem State.Inv.runSequencer {s u : State} {req : Nat} (hs : s.Inv) (h : runSequencer s req = .next u) : u.Inv := by
  obtain ⟨hcfg, hmem, -, -, -⟩ := runSequencer_keeps h
  have hnReg := s.cfg.nReg_legal
  have htime := hs.time_lt
  obtain ⟨-, -, -, rfl⟩ | ⟨hq, -, rfl⟩ | ⟨hq, -, rfl⟩ | ⟨hq, -, rfl⟩ | ⟨hq, -, -, rfl⟩ |
    ⟨hq, -, -, hri, -, rfl⟩ | ⟨-, -, -, -, rfl⟩ := runSequencer_cases h
  · have hri : (BitVec.ofNat 3 (s.cfg.nReg - 1)).toNat < s.cfg.nReg := by rw [lastRegister_toNat]; omega
    exact hs.of_shift hcfg hmem rfl (nextCursor_lt htime) hri
  · have hrest : s.seq ≠ .shift := by simp [hq]
    exact hs.of_rest hcfg hmem hrest htime (hs.position_zero hrest) fun _ => rfl
  · have hcur : (advanceCursor s.cfg s.time).toNat < s.cfg.res := by
      simpa [nextCursor, hq] using nextCursor_lt htime
    exact hs.of_rest hcfg hmem Seq.noConfusion hcur ⟨rfl, rfl, rfl⟩ fun _ => rfl
  · exact hs.of_shift hcfg hmem rfl htime (hs.ri_lt hq)
  · exact hs.of_shift hcfg hmem rfl htime (hs.ri_lt hq)
  · have hlt := hs.ri_lt hq
    have hprev : (s.ri - 1).toNat < s.cfg.nReg := by bv_omega
    exact hs.of_shift hcfg hmem rfl htime hprev
  · exact hs.of_rest hcfg hmem Seq.noConfusion htime ⟨rfl, rfl, rfl⟩ fun hi => Seq.noConfusion hi

/-- Settles O54: the reset state meets the invariant, and the sequencer's move and the command's writes keep it. -/
theorem stepKeepsInv : Obligations.StepKeepsInv := by
  intro s t hs h
  obtain ⟨-, rfl⟩ | ⟨-, req, u, w, hu, hw, rfl⟩ := edge_cases h
  · exact resetMeetsInv s.cfg s.inputs.tail
  · exact (hw.inv (hs.runSequencer hu)).withFlagsAndInputs w.errArg w.errCmd w.inputs.tail

/-- On the invariant every edge answers a next state. -/
theorem State.Inv.step_next {s : State} (hs : s.Inv) : ∃ t, step s = .next t := by
  rw [step_eq_clockEdge]
  cases hr : s.sample.rst with
  | true => exact ⟨_, clockEdge_reset hr⟩
  | false =>
    obtain ⟨u, -, h⟩ := clockEdge_next hs hr
    exact ⟨_, h⟩

/-- What holds of a state of the invariant and is kept by every step holds after any number of edges. -/
theorem stepN_keeps {P : State → Prop} (hP : ∀ s t, s.Inv → P s → step s = .next t → P t) {s : State}
    (hs : s.Inv) (h : P s) (k : Nat) : ∃ t, stepN k s = .next t ∧ t.Inv ∧ P t := by
  induction k with
  | zero => exact ⟨s, rfl, hs, h⟩
  | succ k ih =>
    obtain ⟨u, hu, hinv, hPu⟩ := ih
    obtain ⟨t, ht⟩ := hinv.step_next
    exact ⟨t, (stepN_last hu).trans ht, stepKeepsInv u t hinv (.inl ht), hP u t hinv hPu ht⟩

/-- Settles O55: a run from reset stays in the invariant (`stepN_keeps`) and keeps its parameters. -/
theorem reachableStatesAreLegal : Obligations.ReachableStatesAreLegal := by
  intro c inputs k
  obtain ⟨t, ht, hinv, rfl⟩ := stepN_keeps (P := fun s => s.cfg = c)
    (fun s t _ hc hst => (stepKeepsParameters s t (.inl hst)).1.trans hc) (resetMeetsInv c inputs) rfl k
  have hseq : t.seq = .idle ∨ t.seq = .shift ∨ t.seq = .latch := by cases t.seq <;> simp
  have hbi : t.bi.toNat ≤ 7 := Nat.le_of_lt_succ t.bi.isLt
  exact ⟨t, ht, rfl, hinv.time_lt, hseq, fun hq => ⟨hinv.ri_lt hq, hbi⟩, hinv.position_zero, hinv.idle_pend⟩

end Sys2Proof.Machine
end

section
/-! The thermometer form of every pin's column (10_state.md R47). -/

namespace Sys2Proof.Machine

theorem State.Thermometer.of_same_matrix {s u : State} (h : s.Thermometer) (hcfg : u.cfg = s.cfg)
    (hmem : u.mem = s.mem) : u.Thermometer := by
  unfold State.Thermometer pinColumn
  rw [hcfg, hmem]
  exact h

/-- The threshold of a duty value lies in 0..RES (40_encoder.md R100). -/
theorem scaled_le (v : Byte) (res : Nat) : scaled v.toNat res ≤ res := by
  have hv : v.toNat * res ≤ 255 * res := Nat.mul_le_mul_right res (Nat.le_of_lt_succ v.isLt)
  unfold scaled
  omega

/-- An in-range SET writes the comparator's pattern into its pin's column and no other (40_encoder.md R104, R106). -/
theorem pinColumn_setPin {s : State} (hwf : s.mem.wf = true) {p : Pin} (hp : p.toNat < s.cfg.nPins) (v : Byte)
    {q slice : Nat} (hq : q < s.cfg.nPins) (hslice : slice < s.cfg.res) :
    pinColumn (setPin p v s) q slice =
      if q = p.toNat then decide (slice < scaled v.toNat s.cfg.res) else pinColumn s q slice := by
  have hnReg := s.cfg.nReg_legal
  have hq8 : q / 8 < 8 := by simp only [Config.nPins] at hq; omega
  have hbit : q % 8 < 8 := Nat.mod_lt q (by decide)
  obtain ⟨-, e⟩ | ⟨hout, -⟩ := setPin_cases p v s
  · rw [e, pinColumn, pinColumn, State.withMem_mem]
    by_cases hreg : q / 8 = pinRegister p
    · rw [hreg, matRead_writeColumn hwf _ _ _ hslice (pinRegister_lt p), getLsbD_setBit _ _ _ hbit]
      have hpin : q % 8 = pinBit p ↔ q = p.toNat := by
        rw [pinRegister_eq] at hreg
        rw [pinBit_eq]
        omega
      simp only [hpin, colbit]
    · have hne : q ≠ p.toNat := fun h => hreg (by rw [h, pinRegister_eq])
      rw [matRead_writeColumn_other _ _ _ (pinRegister_lt p) hq8 hreg, if_neg hne]
  · exact absurd hp hout

theorem State.Thermometer.setPin {s : State} (hs : s.Inv) (h : s.Thermometer) (p : Pin) (v : Byte) :
    (setPin p v s).Thermometer := by
  by_cases hp : p.toNat < s.cfg.nPins
  · unfold State.Thermometer
    rw [setPin_cfg]
    intro q hq
    by_cases hqp : q = p.toNat
    · exact ⟨_, scaled_le v s.cfg.res, fun slice hslice => by
        rw [pinColumn_setPin hs.mem_wf hp v hq hslice, if_pos hqp]⟩
    · obtain ⟨th, hth, hcol⟩ := h q hq
      exact ⟨th, hth, fun slice hslice => by
        rw [pinColumn_setPin hs.mem_wf hp v hq hslice, if_neg hqp, hcol slice hslice]⟩
  · obtain ⟨hin, -⟩ | ⟨-, e⟩ := setPin_cases p v s
    · exact absurd hin hp
    · exact e ▸ h.of_same_matrix rfl rfl

theorem CommandResult.thermometer {u w : State} (h : CommandResult u w) (hu : u.Inv) (hth : u.Thermometer) :
    w.Thermometer := by
  obtain rfl | ⟨p, v, rfl⟩ | rfl := h
  · exact hth
  · exact hth.setPin hu p v
  · exact hth.of_same_matrix rfl rfl

/-- At reset every column is 0 (10_state.md R48). -/
theorem pinColumn_resetOf (c : Config) (p t : Nat) : pinColumn (State.resetOf c) p t = false :=
  BitVec.getLsbD_zero

theorem launch_thermometer (c : Config) (inputs : List Sample) : (State.launch c inputs).Thermometer :=
  fun p _ => ⟨0, Nat.zero_le _, fun t _ => pinColumn_resetOf c p t⟩

/-- Settles O56: the reset state has the form, the sequencer leaves the matrix, and a command's writes keep the form. -/
theorem stepKeepsThermometer : Obligations.StepKeepsThermometer := by
  intro s t hs hth h
  obtain ⟨-, rfl⟩ | ⟨-, req, u, w, hu, hw, rfl⟩ := edge_cases h
  · exact launch_thermometer s.cfg s.inputs.tail
  · obtain ⟨hcfg, hmem, -, -, -⟩ := runSequencer_keeps hu
    have hwth : w.Thermometer := hw.thermometer (hs.runSequencer hu) (hth.of_same_matrix hcfg hmem)
    exact hwth.of_same_matrix rfl rfl

/-- An accepted in-range SET gives its pin's column the scaled value as threshold (40_encoder.md R104). -/
theorem exec_set_column {s : State} (hs : s.Inv) (hr : s.sample.rst = false) {p : Pin}
    (hp : p.toNat < s.cfg.nPins) (v : Byte) :
    ∃ t, exec (.set p v) s = .next t ∧
      ∀ slice < s.cfg.res, pinColumn t p.toNat slice = decide (slice < scaled v.toNat s.cfg.res) := by
  obtain ⟨u, hu, h⟩ := clockEdge_next (write := setPin p v) (req := tickRequests s) hs hr
  have hcfg : u.cfg = s.cfg := (runSequencer_keeps hu).1
  rw [← hcfg] at hp ⊢
  refine ⟨_, h, fun slice hslice => ?_⟩
  exact (pinColumn_setPin (hs.runSequencer hu).mem_wf hp v hp hslice).trans (if_pos rfl)

/-- Settles O57: `stepN_keeps` with the form, the empty matrix at reset, and the column a SET writes. -/
theorem reachableColumnsAreThermometers : Obligations.ReachableColumnsAreThermometers := by
  refine ⟨fun c inputs k => ?_, pinColumn_resetOf, fun s p v hs hr hp => exec_set_column hs hr hp v⟩
  obtain ⟨t, ht, -, hcfg, hth⟩ := stepN_keeps (P := fun s => s.cfg = c ∧ s.Thermometer)
    (fun s t hs ⟨hc, hth⟩ hst =>
      ⟨(stepKeepsParameters s t (.inl hst)).1.trans hc, stepKeepsThermometer s t hs hth (.inl hst)⟩)
    (resetMeetsInv c inputs) ⟨rfl, launch_thermometer c inputs⟩ k
  exact ⟨t, ht, hcfg, hth⟩

end Sys2Proof.Machine
end

section
/-! The ports, the error flags, reset's values and the status word (10_state.md R23, R37 to R40, R48). -/

namespace Sys2Proof.Machine

/-- The upper two bits of a command word, by the mask the opcode table uses (30_encoding.md R84). -/
theorem and_opMask (w : Word) : w &&& 0xC000#16 = opField w ++ 0#14 := by
  refine BitVec.eq_of_getLsbD_eq fun i hi => ?_
  simp only [opField, BitVec.getLsbD_and, BitVec.getLsbD_append, BitVec.getLsbD_extractLsb']
  interval_cases i <;> simp

theorem decode_eq_rsvd_iff (w : Word) : decode w = .rsvd ↔ w &&& 0xC000#16 = 0xC000#16 := by
  have hfield : ∀ op : BitVec 2, op ++ 0#14 = 0xC000#16 ↔ op = 0b11#2 := by decide
  rw [and_opMask, hfield, decode]
  split
  · next h => simp [h]
  · split
    · next h => simp [h]
    · split
      · next h => simp [h]
      · simp only [true_iff]
        bv_omega

/-- With no command presented the port writes nothing (10_state.md R23). -/
theorem portWrite_of_not_valid {e : Sample} (h : e.cmdValid = false) (u : State) : portWrite e u = u := by
  simp [portWrite, h]

theorem sampleRequests_of_not_valid {e : Sample} (h : e.cmdValid = false) : sampleRequests e = e.tick.toNat := by
  simp [sampleRequests_eq, portRequests, h]

/-- Settles O5: the edge takes the word only through `portWrite` and `sampleRequests`, which do not read it. -/
theorem commandIgnoredWhenNotValid : Obligations.CommandIgnoredWhenNotValid := by
  intro s e w rest he
  have hwrite : portWrite { e with cmd := w } = portWrite e := funext fun u => by
    rw [portWrite_of_not_valid he, portWrite_of_not_valid (e := { e with cmd := w }) he]
  have hreq : sampleRequests { e with cmd := w } = sampleRequests e := by
    rw [sampleRequests_of_not_valid he, sampleRequests_of_not_valid (e := { e with cmd := w }) he]
  rw [step_eq_clockEdge, step_eq_clockEdge, State.sample_cons, State.sample_cons, hwrite, hreq]
  exact clockEdge_withInputs (portWrite_withInputs e) _ { s with inputs := e :: rest } { e with cmd := w } rfl

/-- Settles O7: the three readings of the ports by `decodeSample`. -/
theorem stepRunsDecodedInstruction : Obligations.StepRunsDecodedInstruction := by
  intro s hr
  refine ⟨fun hv => ?_, fun hv ht => ?_, fun hv ht => ?_⟩
  · simp [step, decodeSample, hr, hv]
  · simp [step, decodeSample, hr, hv, ht]
  · simp [step, decodeSample, hr, hv, ht]

/-- At a reset edge a step does the reset and nothing else (70_reset_and_hazards.md R230). -/
theorem step_of_reset {s : State} (h : s.sample.rst = true) : step s = .next s.afterReset := by
  rw [step_eq_clockEdge, clockEdge_reset h]

/-- Settles O9: the step is `afterReset`, whose elements and outputs are read off. -/
theorem resetStateValues : Obligations.ResetStateValues := by
  intro s h
  exact ⟨s.afterReset, step_of_reset h, fun _ _ => rfl, rfl, rfl, rfl, rfl, rfl, rfl, rfl, rfl, rfl, rfl,
    rfl, rfl, rfl, rfl, by simp [status, busy]⟩

theorem edgeDemand_eq (s : State) : edgeDemand s = demand s (sampleRequests s.sample) := by
  cases h : s.pend <;> simp [edgeDemand, demand, h]

/-- A request is lost at demand 2 in SHIFT and at demand 3 elsewhere, and that alone sets `err_ovr` (41_scheduler.md
R135 to R137). -/
theorem runSequencer_errOvr {s u : State} {req : Nat} (h : runSequencer s req = .next u) :
    u.errOvr = true ↔ s.errOvr = true ∨ (s.seq = .shift ∧ 2 ≤ demand s req) ∨
      (s.seq ≠ .shift ∧ 3 ≤ demand s req) := by
  obtain ⟨hq, -, -, rfl⟩ | ⟨hq, hd, rfl⟩ | ⟨hq, hd, rfl⟩ | ⟨hq, -, rfl⟩ | ⟨hq, -, -, rfl⟩ |
    ⟨hq, -, -, -, -, rfl⟩ | ⟨hq, -, -, -, rfl⟩ := runSequencer_cases h
  · simp [State.started, hq]
  · simp [hq, hd]
  · simp [hq, hd]
  all_goals simp [hq]

theorem portWrite_errOvr (e : Sample) (u : State) : (portWrite e u).errOvr = u.errOvr := by
  rw [portWrite_keeps]

/-- A SET sets `err_arg` exactly if its pin is out of range (40_encoder.md R105). -/
theorem setPin_errArg (p : Pin) (v : Byte) (u : State) :
    (setPin p v u).errArg = true ↔ u.errArg = true ∨ ¬ p.toNat < u.cfg.nPins := by
  obtain ⟨hp, e⟩ | ⟨hp, e⟩ := setPin_cases p v u <;> simp [e, hp]

theorem commandWrite_errArg (i : Instr) (u : State) :
    (commandWrite i u).errArg = true ↔
      u.errArg = true ∨ ∃ p : Pin, ¬ p.toNat < u.cfg.nPins ∧ ∃ v, i = .set p v := by
  cases i with
  | set p v => simp [commandWrite, setPin_errArg]
  | _ => simp [commandWrite]

theorem commandWrite_errCmd (i : Instr) (u : State) :
    (commandWrite i u).errCmd = true ↔ u.errCmd = true ∨ i = .rsvd := by
  cases i with
  | set p v => rw [commandWrite, setPin_keeps]; simp
  | _ => simp [commandWrite]

/-- Settles O32: the command port's writes to `err_arg` and `err_cmd`, and the sequencer's to `err_ovr`. -/
theorem errorFlagsHaveOneCause : Obligations.ErrorFlagsHaveOneCause := by
  intro s t h
  refine ⟨fun hr => ?_, fun hr => ?_⟩
  · rw [step_of_reset hr] at h
    injection h with h
    exact h ▸ ⟨rfl, rfl, rfl⟩
  · rw [step_eq_clockEdge, clockEdge_running hr] at h
    obtain ⟨u, hu, rfl⟩ := onNext_eq_next.1 h
    obtain ⟨hcfg, -, harg, hcmd, -⟩ := runSequencer_keeps hu
    refine ⟨?_, ?_, ?_⟩
    · cases hv : s.sample.cmdValid with
      | false => simp [portWrite_of_not_valid hv, setsPin, hv, harg]
      | true => simp [portWrite, hv, commandWrite_errArg, setsPin, hr, harg, hcfg, Config.nPins]
    · cases hv : s.sample.cmdValid with
      | false => simp [portWrite_of_not_valid hv, hcmd]
      | true => simp [portWrite, hv, commandWrite_errCmd, decode_eq_rsvd_iff, hcmd]
    · rw [State.consumed_errOvr, portWrite_errOvr, runSequencer_errOvr hu, edgeDemand_eq]

/-- Settles O38: each bit of the concatenation is one of its parts. -/
theorem statusWordBits : Obligations.StatusWordBits := by
  intro s
  simp only [status, busy, BitVec.getLsbD_append]
  simp

end Sys2Proof.Machine
end

section
/-! What writes the matrix, what a byte load reads, and where the model stops (20_memory.md R62, R63, R67, R70). -/

namespace Sys2Proof.Machine

/-- An edge's outcome that is no refusal, and a fault only by naming an entry outside the matrix (20_memory.md R62). -/
def StopsOnlyOutside (c : Config) (o : Host.Outcome State Fault Refusal) : Prop :=
  (∀ f, o = .fault f → ∃ t r : Nat, f = .noSuchEntry t r ∧ ¬(t < c.res ∧ r < c.nReg)) ∧ ∀ f, o ≠ .refused f

theorem stopsOnlyOutside_next (c : Config) (s : State) : StopsOnlyOutside c (.next s) :=
  ⟨nofun, nofun⟩

theorem StopsOnlyOutside.onNext {c : Config} {o : Host.Outcome State Fault Refusal} (h : StopsOnlyOutside c o)
    (f : State → State) : StopsOnlyOutside c (onNext o f) := by
  cases o with
  | next s => exact stopsOnlyOutside_next c (f s)
  | fault r => exact h
  | refused r => exact h

theorem loadByte_stopsOnlyOutside (s : State) (t r : Nat) (f : State → State) :
    StopsOnlyOutside s.cfg (loadByte s t r f) := by
  unfold loadByte
  split
  · exact stopsOnlyOutside_next _ _
  · next hno =>
    rw [entryExists_iff] at hno
    refine ⟨fun g hg => ?_, nofun⟩
    injection hg with hg
    exact ⟨t, r, hg.symm, hno⟩

theorem serveOrRest_stopsOnlyOutside (s : State) (d : Nat) : StopsOnlyOutside s.cfg (serveOrRest s d) := by
  unfold serveOrRest
  split
  · exact (loadByte_stopsOnlyOutside s _ _ _).onNext _
  · exact stopsOnlyOutside_next _ _

theorem shiftOn_stopsOnlyOutside (s : State) : StopsOnlyOutside s.cfg (shiftOn s) := by
  unfold shiftOn
  split
  · exact stopsOnlyOutside_next _ _
  · split
    · exact stopsOnlyOutside_next _ _
    · split
      · exact loadByte_stopsOnlyOutside s _ _ _
      · exact stopsOnlyOutside_next _ _

theorem runSequencer_stopsOnlyOutside (s : State) (req : Nat) : StopsOnlyOutside s.cfg (runSequencer s req) := by
  unfold runSequencer
  cases s.seq with
  | idle => exact serveOrRest_stopsOnlyOutside s _
  | latch => exact serveOrRest_stopsOnlyOutside s _
  | shift => exact (shiftOn_stopsOnlyOutside s).onNext _

/-- Settles O52: an edge stops only where the sequencer does, and the sequencer only at a byte load. -/
theorem stopsOnlyAtMissingEntry : Obligations.StopsOnlyAtMissingEntry := by
  intro s i
  change StopsOnlyOutside s.cfg (exec i s)
  rw [exec_eq_clockEdge]
  cases hr : s.sample.rst with
  | true => exact clockEdge_reset hr ▸ stopsOnlyOutside_next _ _
  | false => exact clockEdge_running hr ▸ (runSequencer_stopsOnlyOutside s _).onNext _

/-- What a SET leaves in `M` depends on the parameters and `M` alone. -/
theorem setPin_mem_congr {s u : State} (hcfg : u.cfg = s.cfg) (hmem : u.mem = s.mem) (p : Pin) (v : Byte) :
    (setPin p v u).mem = (setPin p v s).mem := by
  unfold setPin
  rw [hcfg, hmem]
  split
  · rfl
  · exact hmem

/-- A SET touches no register but its pin's (20_memory.md R63). -/
theorem matRead_setPin_other (p : Pin) (v : Byte) (s : State) (slice : Nat) {r : Nat} (hr : r < 8)
    (hne : r ≠ pinRegister p) : matRead (setPin p v s).mem slice r = matRead s.mem slice r := by
  obtain ⟨-, e⟩ | ⟨-, e⟩ := setPin_cases p v s
  · rw [e, State.withMem_mem, matRead_writeColumn_other _ _ _ (pinRegister_lt p) hr hne]
  · rw [e, State.raiseErrArg_mem]

/-- A bit of an entry is a bit of the column of the pin that names it (20_memory.md R61). -/
theorem pinColumn_registerBit (s : State) (slice r : Nat) {b : Nat} (hb : b < 8) :
    pinColumn s (8 * r + b) slice = (matRead s.mem slice r).getLsbD b := by
  have hreg : (8 * r + b) / 8 = r := by omega
  have hbit : (8 * r + b) % 8 = b := by omega
  rw [pinColumn, hreg, hbit]

/-- An in-range SET, bit by bit of every entry (20_memory.md R63). -/
theorem getLsbD_matRead_setPin {s : State} (hwf : s.mem.wf = true) {p : Pin} (hp : p.toNat < s.cfg.nPins) (v : Byte)
    {slice r b : Nat} (hslice : slice < s.cfg.res) (hr : r < s.cfg.nReg) (hb : b < 8) :
    (matRead (setPin p v s).mem slice r).getLsbD b =
      if r = p.toNat / 8 ∧ b = p.toNat % 8 then decide (slice < scaled v.toNat s.cfg.res)
      else (matRead s.mem slice r).getLsbD b := by
  have hpin : 8 * r + b < s.cfg.nPins := by simp only [Config.nPins]; omega
  have hself : 8 * r + b = p.toNat ↔ r = p.toNat / 8 ∧ b = p.toNat % 8 := by omega
  rw [← pinColumn_registerBit (setPin p v s) slice r hb, pinColumn_setPin hwf hp v hpin hslice,
    pinColumn_registerBit s slice r hb]
  simp only [hself]

/-- What a step leaves in `M` when `rst` is low: what the command port writes over the sequencer's answer, which has the
parameters and `M` of before the edge. -/
theorem step_mem {s t : State} (hr : s.sample.rst = false) (h : step s = .next t) :
    ∃ u : State, u.cfg = s.cfg ∧ u.mem = s.mem ∧ t.mem = (portWrite s.sample u).mem := by
  rw [step_eq_clockEdge, clockEdge_running hr] at h
  obtain ⟨u, hu, rfl⟩ := onNext_eq_next.1 h
  obtain ⟨hcfg, hmem, -, -, -⟩ := runSequencer_keeps hu
  exact ⟨u, hcfg, hmem, rfl⟩

/-- An edge with a SET leaves in `M` what the SET writes. -/
theorem step_mem_of_set {s t : State} (hr : s.sample.rst = false) (h : step s = .next t) {p : Pin} {v : Byte}
    (hvalid : s.sample.cmdValid = true) (hset : decode s.sample.cmd = .set p v) : t.mem = (setPin p v s).mem := by
  obtain ⟨u, hcfg, hmem, ht⟩ := step_mem hr h
  have hwrite : portWrite s.sample u = setPin p v u := by simp [portWrite, hvalid, hset, commandWrite]
  rw [ht, hwrite, setPin_mem_congr hcfg hmem]

/-- An edge with no in-range SET leaves `M` as it was. -/
theorem step_mem_of_no_set {s t : State} (hr : s.sample.rst = false) (h : step s = .next t)
    (hno : ∀ p : Pin, p.toNat < s.cfg.nPins → ¬ setsPin s.sample p) : t.mem = s.mem := by
  obtain ⟨u, hcfg, hmem, ht⟩ := step_mem hr h
  rw [ht, ← hmem]
  obtain e | ⟨p, v, hvalid, hset, e⟩ | ⟨-, -, e⟩ := portWrite_cases s.sample u
  · rw [e]
  · obtain ⟨hp, -⟩ | ⟨-, e'⟩ := setPin_cases p v u
    · exact absurd ⟨hr, hvalid, v, hset⟩ (hno p (hcfg ▸ hp))
    · rw [e, e', State.raiseErrArg_mem]
  · rw [e, State.raiseErrCmd_mem]

/-- Settles O22: `step_mem_of_no_set`, and the bits a SET writes. -/
theorem onlySetWritesMatrix : Obligations.OnlySetWritesMatrix := by
  intro s t hr h
  refine ⟨step_mem_of_no_set hr h, fun hs p v hp hvalid hset slice r b hslice hreg hb => ?_⟩
  rw [step_mem_of_set hr h hvalid hset, getLsbD_matRead_setPin hs.mem_wf hp v hslice hreg hb]

/-- The byte loaded as an update starts (42_sequencer.md R162), from the matrix before the edge. -/
theorem runSequencer_sb_of_start {s u : State} {req : Nat} (h : runSequencer s req = .next u)
    (htime : s.time.toNat < s.cfg.res) (hq : s.seq ≠ .shift) (hd : 1 ≤ demand s req) :
    u.sb = matRead s.mem (rowAfter s) (s.cfg.nReg - 1) := by
  obtain ⟨-, -, -, rfl⟩ | ⟨-, hd', -⟩ | ⟨-, hd', -⟩ | ⟨hq', -⟩ | ⟨hq', -⟩ | ⟨hq', -⟩ | ⟨hq', -⟩ := runSequencer_cases h
  · rw [← nextCursor_toNat htime]
    rfl
  · omega
  · omega
  all_goals exact absurd hq' hq

/-- The byte loaded at the next register (42_sequencer.md R165), from the matrix before the edge. -/
theorem runSequencer_sb_of_next_register {s u : State} {req : Nat} (h : runSequencer s req = .next u)
    (hq : s.seq = .shift) (hph : s.ph = true) (hbi : s.bi = 7) (hri : 0 < s.ri.toNat) :
    u.sb = matRead s.mem s.time.toNat (s.ri.toNat - 1) := by
  obtain ⟨hq', -⟩ | ⟨hq', -⟩ | ⟨hq', -⟩ | ⟨-, hph', -⟩ | ⟨-, -, hbi', -⟩ | ⟨-, -, -, -, -, rfl⟩ | ⟨-, -, -, hri', -⟩ :=
    runSequencer_cases h
  · exact absurd hq hq'
  · exact Seq.noConfusion (hq.symm.trans hq')
  · exact Seq.noConfusion (hq.symm.trans hq')
  · exact Bool.noConfusion (hph.symm.trans hph')
  · rw [hbi] at hbi'
    exact absurd hbi' (by decide)
  · rfl
  · omega

theorem setPin_sb (p : Pin) (v : Byte) (s : State) : (setPin p v s).sb = s.sb := by
  rw [setPin_keeps]

/-- Settles O23: the sequencer's load runs before the SET's writes, which leave the shift byte. -/
theorem loadSeesMatrixBeforeSet : Obligations.LoadSeesMatrixBeforeSet := by
  intro s p v hs hr hp
  obtain ⟨t, ht, hcol⟩ := exec_set_column hs hr hp v
  obtain ⟨u, hu, hedge⟩ := clockEdge_next (write := setPin p v) (req := tickRequests s) hs hr
  have htu : t = (setPin p v u).consumed := by injection ht.symm.trans hedge
  have hsb : t.sb = u.sb := by rw [htu, State.consumed_sb, setPin_sb]
  refine ⟨t, ht, hcol, fun hq hreq => ?_, fun hq hph hbi hri => ?_⟩
  · have hd : 1 ≤ demand s (tickRequests s) := by
      obtain h | h := hreq <;> simp [demand, tickRequests, h]
    rw [hsb, runSequencer_sb_of_start hu hs.time_lt hq hd]
  · rw [hsb, runSequencer_sb_of_next_register hu hq hph hbi hri]

/-- From a state of the invariant a run goes on for ever; each edge takes its own sample. -/
theorem State.Inv.run {s : State} (hs : s.Inv) (k : Nat) :
    ∃ t, stepN k s = .next t ∧ t.Inv ∧ t.inputs = s.inputs.drop k := by
  induction k with
  | zero => exact ⟨s, rfl, hs, rfl⟩
  | succ k ih =>
    obtain ⟨u, hu, hinv, hin⟩ := ih
    obtain ⟨t, ht⟩ := hinv.step_next
    refine ⟨t, (stepN_last hu).trans ht, stepKeepsInv u t hinv (.inl ht), ?_⟩
    rw [(stepKeepsParameters u t (.inl ht)).2, hin, List.tail_drop]

/-- The next edge's sample, by the inputs of the run's first state. -/
theorem sample_of_inputs_drop {s t : State} {k : Nat} (h : t.inputs = s.inputs.drop k) :
    t.sample = s.inputs.getD k Sample.quiet := by
  rw [State.sample, h, List.headD_eq_head?_getD, List.head?_drop, List.getD_eq_getElem?_getD]

/-- An edge past the listed inputs is quiet, so no reset either. -/
theorem State.noResetFor.rst {s : State} {n k : Nat} (h : s.noResetFor n) (hk : k < n) :
    (s.inputs.getD k Sample.quiet).rst = false := by
  by_cases hlen : k < s.inputs.length
  · rw [List.getD_eq_getElem _ _ hlen]
    exact h _ (List.mem_take_iff_getElem.2 ⟨k, by omega, rfl⟩)
  · rw [List.getD_eq_default _ _ (by omega)]
    rfl

/-- A step of a run, its ports read from the inputs of the run's first state. -/
theorem State.Inv.run_step {s : State} (hs : s.Inv) {n k : Nat} (hn : s.noResetFor n) (hk : k < n) :
    ∃ t u, stepN k s = .next t ∧ stepN (k + 1) s = .next u ∧ step t = .next u ∧
      t.sample = s.inputs.getD k Sample.quiet ∧ t.sample.rst = false := by
  obtain ⟨t, ht, hinv, hin⟩ := hs.run k
  obtain ⟨u, hu⟩ := hinv.step_next
  have hsample := sample_of_inputs_drop hin
  exact ⟨t, u, ht, (stepN_last ht).trans hu, hu, hsample, hsample ▸ hn.rst hk⟩

/-- Between two edges of a run with no SET and no reset, `M` stays. -/
theorem stepN_mem_of_no_set {s u : State} (hs : s.Inv) {i j : Nat} (hij : i ≤ j) (hr : s.noResetFor j)
    (hno : ∀ k, i ≤ k → k < j → ∀ p, ¬ setsPin (s.inputs.getD k Sample.quiet) p) (hu : stepN i s = .next u) :
    ∃ w, stepN j s = .next w ∧ w.mem = u.mem := by
  induction j, hij using Nat.le_induction with
  | base => exact ⟨u, hu, rfl⟩
  | succ j hij ih =>
    obtain ⟨w, hw, hmem⟩ := ih (noResetFor_mono hr (Nat.le_succ j)) fun k hik hkj => hno k hik (by omega)
    obtain ⟨t, x, ht, hx, hstep, hsample, hrst⟩ := hs.run_step hr (Nat.lt_succ_self j)
    obtain rfl : w = t := by injection hw.symm.trans ht
    have hquiet : ∀ p : Pin, p.toNat < w.cfg.nPins → ¬ setsPin w.sample p := fun p _ =>
      hsample ▸ hno j hij (Nat.lt_succ_self j) p
    exact ⟨x, hx, (step_mem_of_no_set hrst hstep hquiet).trans hmem⟩

/-- A run of `n` edges whose one SET is that of `p` at edge `k`: up to edge `k` the matrix is the first, after it the
last, and the two differ in `p`'s register alone. -/
theorem stepN_mem_of_one_set {s : State} (hs : s.Inv) {n k : Nat} (hr : s.noResetFor n) (hk : k < n) {p : Pin}
    (hset : setsPin (s.inputs.getD k Sample.quiet) p)
    (hone : ∀ j < n, j ≠ k → ∀ q, ¬ setsPin (s.inputs.getD j Sample.quiet) q) :
    ∃ f, stepN n s = .next f ∧
      (∀ j ≤ n, ∃ u, stepN j s = .next u ∧ u.mem = if j ≤ k then s.mem else f.mem) ∧
      ∀ slice, ∀ r < 8, r ≠ pinRegister p → matRead f.mem slice r = matRead s.mem slice r := by
  have hbefore : ∀ j ≤ k, ∃ u, stepN j s = .next u ∧ u.mem = s.mem := fun j hj =>
    stepN_mem_of_no_set hs (Nat.zero_le j) (noResetFor_mono hr (by omega))
      (fun i _ hij => hone i (by omega) (by omega)) rfl
  obtain ⟨a, b, ha, hb, hstep, hsample, hrst⟩ := hs.run_step hr hk
  have hafter : ∀ j, k < j → j ≤ n → ∃ u, stepN j s = .next u ∧ u.mem = b.mem := fun j hj hjn =>
    stepN_mem_of_no_set hs hj (noResetFor_mono hr hjn) (fun i hki hij => hone i (by omega) (by omega)) hb
  obtain ⟨f, hf, hfb⟩ := hafter n hk le_rfl
  refine ⟨f, hf, fun j hjn => ?_, fun slice r hr8 hne => ?_⟩
  · split
    · next hj => exact hbefore j hj
    · next hj => exact hfb ▸ hafter j (by omega) hjn
  · obtain ⟨a', ha', hmem⟩ := hbefore k le_rfl
    obtain rfl : a = a' := by injection ha.symm.trans ha'
    obtain ⟨-, hvalid, v, hdecode⟩ := hset
    rw [← hsample] at hvalid hdecode
    rw [hfb, step_mem_of_set hrst hstep hvalid hdecode, matRead_setPin_other p v a slice hr8 hne, hmem]

/-- Settles O43: the SET's register is loaded either up to the SET's edge or after it, and every other register's byte
is the same before the SET and after. -/
theorem oneSetCannotSplitFrame : Obligations.OneSetCannotSplitFrame := by
  intro s hs _ _ hr hone
  have hnReg := s.cfg.nReg_legal
  by_cases hany : ∃ k ≤ 16 * s.cfg.nReg, ∃ p, setsPin (s.inputs.getD k Sample.quiet) p
  · obtain ⟨k, hk, p, hset⟩ := hany
    have hothers : ∀ j < 16 * s.cfg.nReg + 1, j ≠ k → ∀ q, ¬ setsPin (s.inputs.getD j Sample.quiet) q := by
      intro j hj hjk q hq
      obtain hlt | hlt := Nat.lt_or_gt_of_ne hjk
      · exact hone j k hlt hk q p ⟨hq, hset⟩
      · exact hone k j hlt (by omega) p q ⟨hset, hq⟩
    obtain ⟨f, hf, hrun, hframe⟩ := stepN_mem_of_one_set hs hr (by omega) hset hothers
    refine ⟨f, hf, ?_⟩
    by_cases hload : 16 * (s.cfg.nReg - 1 - pinRegister p) ≤ k
    · refine .inl fun n hn => ?_
      obtain ⟨u, hu, hmem⟩ := hrun (16 * n) (by omega)
      refine ⟨u, hu, ?_⟩
      rw [hmem]
      split
      · rfl
      · exact hframe _ _ (by omega) (by omega)
    · refine .inr fun n hn => ?_
      obtain ⟨u, hu, hmem⟩ := hrun (16 * n) (by omega)
      refine ⟨u, hu, ?_⟩
      rw [hmem]
      split
      · exact (hframe _ _ (by omega) (by omega)).symm
      · rfl
  · have hsame : ∀ j ≤ 16 * s.cfg.nReg + 1, ∃ u, stepN j s = .next u ∧ u.mem = s.mem := fun j hj =>
      stepN_mem_of_no_set hs (Nat.zero_le j) (noResetFor_mono hr hj)
        (fun k _ hkj p hp => hany ⟨k, by omega, p, hp⟩) rfl
    obtain ⟨f, hf, -⟩ := hsame _ le_rfl
    refine ⟨f, hf, .inl fun n hn => ?_⟩
    obtain ⟨u, hu, hmem⟩ := hsame (16 * n) (by omega)
    exact ⟨u, hu, by rw [hmem]⟩

end Sys2Proof.Machine
end

section
/-! The opcode map, and decoding against encoding (30_encoding.md R80 to R90). -/

namespace Sys2Proof

/-! A word's fields (30_encoding.md R81). -/

theorem opField_append (op : BitVec 2) (pin : Pin) (val : Byte) : opField (op ++ pin ++ val) = op := by
  rw [opField, BitVec.append_assoc]
  exact BitVec.extractLsb'_append_eq_left

theorem pinField_append (op : BitVec 2) (pin : Pin) (val : Byte) : pinField (op ++ pin ++ val) = pin := by
  rw [pinField, BitVec.extractLsb'_append_eq_of_le le_rfl]
  exact BitVec.extractLsb'_append_eq_right

theorem valField_append (op : BitVec 2) (pin : Pin) (val : Byte) : valField (op ++ pin ++ val) = val :=
  BitVec.extractLsb'_append_eq_right

/-- A word is its three fields. -/
theorem fields_append (w : Word) : opField w ++ pinField w ++ valField w = w := by
  rw [opField, pinField, valField, BitVec.extractLsb'_append_extractLsb'_eq_extractLsb' (show 14 = 8 + 6 from rfl)]
  exact BitVec.extractLsb'_append_extractLsb'

theorem pinField_eq_ofNat (w : Word) : pinField w = BitVec.ofNat 6 (w.toNat / 2 ^ 8) := by
  rw [pinField, BitVec.extractLsb', Nat.shiftRight_eq_div_pow]

theorem valField_eq_ofNat (w : Word) : valField w = BitVec.ofNat 8 w.toNat := by
  rw [valField, BitVec.extractLsb', Nat.shiftRight_zero]

/-! The four rows of the opcode table (30_encoding.md R84, R90). -/

/-- A word masked with 0xC000 shows its opcode. -/
theorem opField_of_masked {w : Word} {op : BitVec 2} (h : w &&& 0xC000#16 = op ++ 0#14) : opField w = op :=
  (BitVec.append_left_inj 0#14).1 ((Machine.and_opMask w).symm.trans h)

theorem decode_of_masked_nop {w : Word} (h : w &&& 0xC000#16 = 0x0000#16) : decode w = .nop := by
  have hop : opField w = 0b00#2 := opField_of_masked h
  simp [decode, hop]

theorem decode_of_masked_set {w : Word} (h : w &&& 0xC000#16 = 0x4000#16) :
    decode w = .set (pinField w) (valField w) := by
  have hop : opField w = 0b01#2 := opField_of_masked h
  simp [decode, hop]

theorem decode_of_masked_update {w : Word} (h : w &&& 0xC000#16 = 0x8000#16) : decode w = .update := by
  have hop : opField w = 0b10#2 := opField_of_masked h
  simp [decode, hop]

theorem decode_of_masked_rsvd {w : Word} (h : w &&& 0xC000#16 = 0xC000#16) : decode w = .rsvd :=
  (Machine.decode_eq_rsvd_iff w).2 h

/-- Every word lies in one of the four rows. -/
theorem masked_cases (w : Word) :
    w &&& 0xC000#16 = 0x0000#16 ∨ w &&& 0xC000#16 = 0x4000#16 ∨ w &&& 0xC000#16 = 0x8000#16 ∨
      w &&& 0xC000#16 = 0xC000#16 := by
  have hrows : ∀ op : BitVec 2,
      op ++ 0#14 = 0x0000#16 ∨ op ++ 0#14 = 0x4000#16 ∨ op ++ 0#14 = 0x8000#16 ∨ op ++ 0#14 = 0xC000#16 := by
    decide
  rw [Machine.and_opMask]
  exact hrows (opField w)

/-- Settles O2: each row selects its instruction, and `masked_cases` says that the rows are all. -/
theorem opcodeMapIsComplete : Obligations.OpcodeMapIsComplete := by
  intro w
  refine ⟨decode_of_masked_nop, fun h => ?_, decode_of_masked_update, decode_of_masked_rsvd, masked_cases w⟩
  rw [decode_of_masked_set h, pinField_eq_ofNat, valField_eq_ofNat]

/-! Decoding against encoding (30_encoding.md R86, R88). -/

/-- The word of a SET, its fields put together, decodes to that SET. -/
theorem decode_setFields (pin : Pin) (val : Byte) : decode (0b01#2 ++ pin ++ val) = .set pin val := by
  simp [decode, opField_append, pinField_append, valField_append]

theorem decode_encode {i : Instr} {w : Word} (h : encode i = some w) : decode w = i := by
  cases i with
  | set pin val =>
    obtain rfl := Option.some.inj h
    exact decode_setFields pin val
  | tick => cases h
  | nop | update | rsvd =>
    obtain rfl := Option.some.inj h
    rfl

theorem encode_eq_none_iff (i : Instr) : encode i = none ↔ i = .tick := by
  cases i <;> simp [encode]

/-- A decoded word encodes to itself, but for the ignored bits of a word that is no SET's (30_encoding.md R86). -/
theorem encode_decode (w : Word) :
    encode (decode w) = some (if w &&& 0xC000#16 = 0x4000#16 then w else w &&& 0xC000#16) := by
  obtain h | h | h | h := masked_cases w
  · rw [decode_of_masked_nop h, h]; rfl
  · have hop : opField w = 0b01#2 := opField_of_masked h
    rw [decode_of_masked_set h, if_pos h, encode, ← hop, fields_append]
  · rw [decode_of_masked_update h, h]; rfl
  · rw [decode_of_masked_rsvd h, h]; rfl

/-- Ports that present an instruction's word, or assert `tick` for TICK, decode to the instruction. -/
theorem decodeSample_encodeSample (i : Instr) : decodeSample (encodeSample i) = some i := by
  unfold encodeSample
  cases h : encode i with
  | none =>
    obtain rfl := (encode_eq_none_iff i).1 h
    rfl
  | some w => exact congrArg some (decode_encode h)

/-- At 16 bits the opcode table's numbering is the command word's own (log 10). -/
theorem decodeTableWord_toNat (w : Word) : decodeTableWord 16 w.toNat = some (decode w) := by
  have hword : BitVec.ofNat 16 (w.toNat % 2 ^ 16) = w := by
    rw [Nat.mod_eq_of_lt w.isLt, BitVec.ofNat_toNat, BitVec.setWidth_eq]
  exact congrArg (fun v => some (decode v)) hword

/-- Settles O3: the ports, the words both ways, TICK without a word, and the opcode table's numbering. -/
theorem decodeEncodeRoundTrip : Obligations.DecodeEncodeRoundTrip :=
  ⟨decodeSample_encodeSample, fun _ _ => decode_encode, encode_eq_none_iff, encode_decode, decodeTableWord_toNat⟩

/-- Words of one opcode that is not SET's are the same instruction (30_encoding.md R86). -/
theorem decode_eq_of_masked_eq {w w' : Word} (hset : w &&& 0xC000#16 ≠ 0x4000#16)
    (h : w' &&& 0xC000#16 = w &&& 0xC000#16) : decode w' = decode w := by
  obtain hw | hw | hw | hw := masked_cases w
  · rw [decode_of_masked_nop hw, decode_of_masked_nop (h.trans hw)]
  · exact absurd hw hset
  · rw [decode_of_masked_update hw, decode_of_masked_update (h.trans hw)]
  · rw [decode_of_masked_rsvd hw, decode_of_masked_rsvd (h.trans hw)]

/-- Settles O4: a step reads of a presented word only what it decodes to. -/
theorem ignoredBitsHaveNoEffect : Obligations.IgnoredBitsHaveNoEffect := by
  intro s w w' hset h
  have hdecode := decode_eq_of_masked_eq hset h
  constructor
  · rw [Machine.step_presenting, Machine.step_presenting, hdecode]
  · rw [hdecode, encode_decode, if_neg hset]

end Sys2Proof
end

section
/-! The assembler's items (30_encoding.md R91, R92). -/

namespace Sys2Proof

/-- The number the assembler computes for a SET is the encoder's word. -/
theorem ofNat_setWord {pin value : Nat} (hpin : pin ≤ 63) (hvalue : value ≤ 255) :
    BitVec.ofNat 16 (setWord pin value) = 0b01#2 ++ BitVec.ofNat 6 pin ++ BitVec.ofNat 8 value := by
  refine BitVec.eq_of_toNat_eq ?_
  have hp : pin % 2 ^ 6 = pin := Nat.mod_eq_of_lt (by omega)
  have hv : value % 2 ^ 8 = value := Nat.mod_eq_of_lt (by omega)
  simp only [BitVec.toNat_append, BitVec.toNat_ofNat, hp, hv]
  rw [← Nat.shiftLeft_add_eq_or_of_lt (by omega), ← Nat.shiftLeft_add_eq_or_of_lt (by omega)]
  simp only [setWord, Nat.shiftLeft_eq]
  omega

/-- A presented word gives its instruction whatever `tick` is (30_encoding.md R92). -/
theorem decodeSample_command {w : Nat} {i : Instr} (h : decode (BitVec.ofNat 16 w) = i) (tick : Bool) :
    decodeSample { commandSample w with tick := tick } = some i :=
  congrArg some h

theorem decodeSample_setWord {pin value : Nat} (hpin : pin ≤ 63) (hvalue : value ≤ 255) (tick : Bool) :
    decodeSample { commandSample (setWord pin value) with tick := tick } =
      some (.set (BitVec.ofNat 6 pin) (BitVec.ofNat 8 value)) := by
  have hdecode := decode_setFields (BitVec.ofNat 6 pin) (BitVec.ofNat 8 value)
  exact decodeSample_command (ofNat_setWord hpin hvalue ▸ hdecode) tick

theorem pinWritable_iff (pin : Nat) : pinWritable pin = true ↔ pin ≤ 63 := decide_eq_true_iff

theorem valueWritable_iff (value : Nat) : valueWritable value = true ↔ value ≤ 255 := decide_eq_true_iff

theorem wellFormed_set_iff (pin value : Nat) : (AsmItem.set pin value).wellFormed = true ↔ pin ≤ 63 ∧ value ≤ 255 := by
  simp only [AsmItem.wellFormed, Bool.and_eq_true, pinWritable_iff, valueWritable_iff]

theorem wellFormed_word_iff (w : Nat) : (AsmItem.word w).wellFormed = true ↔ w ≤ 0xFFFF := by
  simp only [AsmItem.wellFormed, decide_eq_true_iff]
  omega

/-- Every pin an instance can have is a pin the assembler accepts. -/
theorem pin_le_of_mem_range {c : Config} {p : Nat} (hp : p ∈ List.range (8 * c.nReg)) : p ≤ 63 := by
  have hnReg := c.nReg_legal
  have hlt := List.mem_range.1 hp
  omega

/-- `SETALL` is the SET of every pin of the instance. -/
theorem map_decodeSample_setAll (c : Config) {value : Nat} (hvalue : value ≤ 255) :
    ((AsmItem.setAll value).samples c).map decodeSample =
      (List.range (8 * c.nReg)).map fun p => some (.set (BitVec.ofNat 6 p) (BitVec.ofNat 8 value)) := by
  rw [AsmItem.samples, List.map_map]
  exact List.map_congr_left fun p hp => decodeSample_setWord (pin_le_of_mem_range hp) hvalue false

/-- Settles O6: the operands by the range checks, the ports as `AsmItem.samples` lists them, and the SET family's
instructions by `decodeSample_setWord`. -/
theorem assembledCommandsDecode : Obligations.AssembledCommandsDecode := by
  intro c pin value w n command setting
  have hnop : decode (BitVec.ofNat 16 0x0000) = .nop := decode_of_masked_nop (by decide)
  have hupdate : decode (BitVec.ofNat 16 0x8000) = .update := decode_of_masked_update (by decide)
  refine ⟨⟨wellFormed_set_iff pin value, wellFormed_word_iff w, pinWritable_iff pin, pinWritable_iff pin,
    valueWritable_iff value, wellFormed_set_iff pin value⟩,
    ⟨rfl, decodeSample_command hnop false⟩, fun h => ⟨rfl, ?set⟩, ⟨rfl, decodeSample_command hupdate false⟩,
    fun h => ⟨rfl, ?word⟩, ⟨rfl, rfl⟩, rfl, fun h => ⟨rfl, ?on⟩, fun h => ⟨rfl, ?off⟩, fun h => ⟨rfl, ?setAll⟩, rfl,
    ⟨rfl, decodeSample_command hupdate true⟩, fun h => ⟨rfl, ?setTick⟩⟩
  case set =>
    obtain ⟨hpin, hvalue⟩ := (wellFormed_set_iff pin value).1 h
    exact decodeSample_setWord hpin hvalue false
  case word =>
    have hw := (wellFormed_word_iff w).1 h
    exact Nat.mod_eq_of_lt (Nat.lt_succ_of_le hw)
  case on => exact decodeSample_setWord ((pinWritable_iff pin).1 h) le_rfl false
  case off => exact decodeSample_setWord ((pinWritable_iff pin).1 h) (Nat.zero_le 255) false
  case setAll => exact map_decodeSample_setAll c ((valueWritable_iff value).1 h)
  case setTick =>
    obtain ⟨hpin, hvalue⟩ := (wellFormed_set_iff pin value).1 h
    exact decodeSample_setWord hpin hvalue true

end Sys2Proof
end

section
/-! The scaled threshold of a duty value, and the encoder's bit write (40_encoder.md R100 to R102, R109). -/

namespace Sys2Proof.Machine

/-- A larger duty value scales to no smaller threshold (40_encoder.md R102). -/
theorem scaled_mono {v v' : Nat} (h : v ≤ v') (res : Nat) : scaled v res ≤ scaled v' res :=
  Nat.div_le_div_right (Nat.add_le_add_right (Nat.mul_le_mul_right res h) 127)

theorem scaled_zero (res : Nat) : scaled 0 res = 0 := by
  simp [scaled]

/-- The full duty value asks for every slice (40_encoder.md R102). -/
theorem scaled_full (res : Nat) : scaled 255 res = res := by
  unfold scaled
  omega

/-- At RES = 255 scaling is the identity (40_encoder.md R102). -/
theorem scaled_at_255 (v : Nat) : scaled v 255 = v := by
  unfold scaled
  omega

/-- A duty value reaches threshold `k` as soon as `v * RES` comes within half a step of it (40_encoder.md R100). -/
theorem le_scaled_iff {k v res : Nat} (hk : 1 ≤ k) : k ≤ scaled v res ↔ 255 * k - 127 ≤ v * res := by
  rw [scaled, Nat.le_div_iff_mul_le (by decide)]
  omega

/-- Settles O12: rounding by the remainder of `v * RES`, and the bounds from `v ≤ 255`. -/
theorem scaledIsRoundHalfUp : Obligations.ScaledIsRoundHalfUp := by
  intro v res hv _ hres
  have hprod : v * res ≤ 255 * 255 := Nat.mul_le_mul hv hres
  have hle : scaled v res ≤ res := (scaled_mono hv res).trans_eq (scaled_full res)
  refine ⟨rfl, ?_, by omega, hle⟩
  unfold scaled
  split <;> omega

/-- Settles O13: 255 is odd, so `2 v RES` is never an odd multiple of it, and the nearest integer is unique. -/
theorem scaledHasNoTie : Obligations.ScaledHasNoTie := by
  intro v res
  constructor
  · intro k h
    rw [Nat.mul_assoc] at h
    omega
  · intro m hlow hhigh
    unfold scaled
    omega

/-- Settles O14: the end points and the order of `scaled`, and the least `v` by `le_scaled_iff`. -/
theorem scaledEndpointsAndOrder : Obligations.ScaledEndpointsAndOrder := by
  intro res hres _
  refine ⟨scaled_zero res, scaled_full res, fun v v' h _ => scaled_mono h res, fun v _ => scaled_at_255 v,
    fun k hk _ v _ => ?_⟩
  rw [le_scaled_iff hk, Nat.div_le_iff_le_mul_add_pred (by omega), Nat.mul_comm res v]
  omega

/-- Under any mask, clearing the bits and putting `c` there is the branchless xor of 40_encoder.md R109. -/
theorem masked_write_eq_xor (x m : Byte) (c : Bool) :
    (x &&& ~~~m) ||| (if c then m else 0#8) = x ^^^ ((x ^^^ (if c then 0xFF#8 else 0x00#8)) &&& m) := by
  have hbool : ∀ a k d : Bool, (a && !k || d && k) = (a ^^ ((a ^^ d) && k)) := by decide
  refine BitVec.eq_of_getLsbD_eq fun i hi => ?_
  have hput : (if c then m else 0#8).getLsbD i = (c && m.getLsbD i) := by cases c <;> simp
  have hfill : (if c then BitVec.allOnes 8 else 0#8).getLsbD i = c := by
    cases c
    · exact BitVec.getLsbD_zero
    · exact BitVec.getLsbD_allOnes.trans (decide_eq_true hi)
  rw [show 0xFF#8 = BitVec.allOnes 8 from rfl]
  simp only [BitVec.getLsbD_or, BitVec.getLsbD_and, BitVec.getLsbD_not, BitVec.getLsbD_xor, hput, hfill, hi,
    decide_true, Bool.true_and]
  exact hbool (x.getLsbD i) (m.getLsbD i) c

/-- Settles O15: `setBit` is the masked form, and `masked_write_eq_xor` at the mask `1 << b` the other. -/
theorem bitWriteForms : Obligations.BitWriteForms := fun x b c => ⟨rfl, masked_write_eq_xor x (1#8 <<< b) c⟩

end Sys2Proof.Machine
end

section
/-! What an edge with a SET does, said against the same edge with NOP (40_encoder.md R104 to R106). -/

namespace Sys2Proof.Machine

/-- A SET's writes do not depend on whether the edge's sample is used up. -/
theorem setPin_consumed (p : Pin) (v : Byte) (s : State) : setPin p v s.consumed = (setPin p v s).consumed := by
  have hconsumed : ∀ u : State, u.consumed = u.withInputs u.inputs.tail := fun _ => rfl
  rw [hconsumed, hconsumed, setPin_withInputs, setPin_inputs]

/-- A SET's edge is the NOP's edge with the SET's writes after it (40_encoder.md R104, R105). -/
theorem exec_set_eq_onNext_nop {s : State} (hr : s.sample.rst = false) (p : Pin) (v : Byte) :
    exec (.set p v) s = onNext (exec .nop s) (setPin p v) := by
  rw [exec_eq_clockEdge, exec_eq_clockEdge, clockEdge_running hr, clockEdge_running hr]
  simp only [instrRequests, instrWrite]
  cases runSequencer s (tickRequests s) with
  | next u => exact congrArg Host.Outcome.next (setPin_consumed p v u).symm
  | fault r => rfl
  | refused r => rfl

/-- A NOP's edge leaves the parameters, `M` and the command's flags. -/
theorem exec_nop_keeps {s t : State} (hr : s.sample.rst = false) (h : exec .nop s = .next t) :
    t.cfg = s.cfg ∧ t.mem = s.mem ∧ t.errArg = s.errArg ∧ t.errCmd = s.errCmd := by
  rw [exec_eq_clockEdge, clockEdge_running hr] at h
  obtain ⟨u, hu, rfl⟩ := onNext_eq_next.1 h
  obtain ⟨hcfg, hmem, harg, hcmd, -⟩ := runSequencer_keeps hu
  exact ⟨hcfg, hmem, harg, hcmd⟩

/-- A SET that answers a next state wrote its pin into what the NOP's edge leaves. -/
theorem exec_set_eq_next {s t : State} (hr : s.sample.rst = false) {p : Pin} {v : Byte}
    (h : exec (.set p v) s = .next t) : ∃ u, exec .nop s = .next u ∧ t = setPin p v u :=
  onNext_eq_next.1 (exec_set_eq_onNext_nop hr p v ▸ h)

/-- On the invariant NOP and every SET answer a next state, the SET's being the NOP's with the pin written. -/
theorem exec_nop_and_set {s : State} (hs : s.Inv) (hr : s.sample.rst = false) :
    ∃ u, exec .nop s = .next u ∧ ∀ p v, exec (.set p v) s = .next (setPin p v u) := by
  obtain ⟨u, -, hu⟩ := clockEdge_next (write := id) (req := tickRequests s) hs hr
  refine ⟨u.consumed, hu, fun p v => ?_⟩
  rw [exec_set_eq_onNext_nop hr, exec_eq_clockEdge]
  exact congrArg (fun o => onNext o (setPin p v)) hu

/-- What a SET leaves in `M`, from the state before the edge. -/
theorem exec_set_mem {s t : State} (hr : s.sample.rst = false) {p : Pin} {v : Byte}
    (h : exec (.set p v) s = .next t) : t.mem = (setPin p v s).mem := by
  obtain ⟨u, hu, rfl⟩ := exec_set_eq_next hr h
  obtain ⟨hcfg, hmem, -, -⟩ := exec_nop_keeps hr hu
  exact setPin_mem_congr hcfg hmem p v

theorem pinColumn_congr {s t : State} (h : t.mem = s.mem) (q slice : Nat) : pinColumn t q slice = pinColumn s q slice := by
  rw [pinColumn, pinColumn, h]

theorem setPin_of_inRange {p : Pin} {s : State} (hp : p.toNat < s.cfg.nPins) (v : Byte) :
    setPin p v s =
      s.withMem (writeColumn (pinRegister p) (pinBit p) (scaled v.toNat s.cfg.res) s.cfg.res s.mem) :=
  if_pos ((pinInRange_iff s.cfg p).2 hp)

theorem setPin_of_outOfRange {p : Pin} {s : State} (hp : ¬ p.toNat < s.cfg.nPins) (v : Byte) :
    setPin p v s = s.raiseErrArg :=
  if_neg fun h => hp ((pinInRange_iff s.cfg p).1 h)

/-- A presented SET word is the SET of its fields. -/
theorem step_presenting_set {s : State} {w : Word} (hw : w &&& 0xC000#16 = 0x4000#16) :
    step (s.presenting w) = exec (.set (pinField w) (valField w)) s := by
  rw [step_presenting, decode_of_masked_set hw]
  rfl

/-- The pin field as a number is bits 13..8 of the word (30_encoding.md R81). -/
theorem pinField_toNat (w : Word) : (pinField w).toNat = w.toNat / 2 ^ 8 % 2 ^ 6 := by
  rw [pinField_eq_ofNat, BitVec.toNat_ofNat]

/-- The value field as a number is bits 7..0 of the word (30_encoding.md R81). -/
theorem valField_toNat (w : Word) : (valField w).toNat = w.toNat % 2 ^ 8 := by
  rw [valField_eq_ofNat, BitVec.toNat_ofNat]

/-- Every entry of the matrix after a SET, bit by bit; a pin out of range names no register of the chain, so its SET
writes none of them (20_memory.md R63, 40_encoder.md R105). -/
theorem getLsbD_matRead_setPin_of_any_pin {s : State} (hwf : s.mem.wf = true) (p : Pin) (v : Byte)
    {slice r b : Nat} (hslice : slice < s.cfg.res) (hr : r < s.cfg.nReg) (hb : b < 8) :
    (matRead (setPin p v s).mem slice r).getLsbD b =
      if r = p.toNat / 8 ∧ b = p.toNat % 8 then decide (slice < scaled v.toNat s.cfg.res)
      else (matRead s.mem slice r).getLsbD b := by
  by_cases hp : p.toNat < s.cfg.nPins
  · exact getLsbD_matRead_setPin hwf hp v hslice hr hb
  · have hother : ¬(r = p.toNat / 8 ∧ b = p.toNat % 8) := by
      simp only [Config.nPins] at hp
      omega
    rw [setPin_of_outOfRange hp, if_neg hother, State.raiseErrArg_mem]

/-- Settles O17: the SET writes its pin into what NOP leaves, and the word's fields are its operands. -/
theorem setWritesColumnOrFlags : Obligations.SetWritesColumnOrFlags := by
  intro s w hs hr hw
  obtain ⟨t, hnop, hset⟩ := exec_nop_and_set hs hr
  obtain ⟨hcfg, hmem, harg, hcmd⟩ := exec_nop_keeps hr hnop
  refine ⟨t, (setPin (pinField w) (valField w) t).mem, hnop, ?_⟩
  rw [← pinField_toNat, ← valField_toNat]
  have hresult : setPin (pinField w) (valField w) t =
      if (pinField w).toNat < 8 * s.cfg.nReg then { t with mem := (setPin (pinField w) (valField w) t).mem }
      else { t with errArg := true } := by
    rw [← hcfg]
    split
    · next hp => rw [setPin_of_inRange hp]; rfl
    · next hp => exact setPin_of_outOfRange hp _
  have hexec := (hset (pinField w) (valField w)).trans (congrArg _ hresult)
  refine ⟨(step_presenting_set hw).trans hexec, ?_, hmem, harg, hcmd, fun slice r b hslice hreg hb => ?_⟩
  · rw [BitVec.ofNat_toNat, BitVec.ofNat_toNat, BitVec.setWidth_eq, BitVec.setWidth_eq]
    exact hexec
  · rw [setPin_mem_congr hcfg hmem]
    exact getLsbD_matRead_setPin_of_any_pin hs.mem_wf _ _ hslice hreg hb

/-- Settles O18: the column written is the SET's own. -/
theorem setIsolatesOtherPins : Obligations.SetIsolatesOtherPins := by
  intro s p v hs hr hp
  obtain ⟨u, -, hset⟩ := exec_nop_and_set hs hr
  refine ⟨_, hset p v, fun q slice hq hne hslice => ?_⟩
  rw [pinColumn_congr (exec_set_mem hr (hset p v)), pinColumn_setPin hs.mem_wf hp v hq hslice, if_neg hne]

/-- Settles O21: a SET writes its column or `err_arg` into what NOP leaves. -/
theorem setFrame : Obligations.SetFrame := by
  intro s t p v hr h
  obtain ⟨u, hnop, rfl⟩ := exec_set_eq_next hr h
  obtain ⟨hcfg, hmem, harg, -⟩ := exec_nop_keeps hr hnop
  rw [← hcfg, ← hmem, ← harg]
  refine ⟨fun a ha => ?_, fun hp a => ?_, fun hp => ?_, u, hnop, setPin_keeps p v u⟩
  · by_cases hp : p.toNat < u.cfg.nPins
    · rw [setPin_of_inRange hp]
      exact read_writeColumn_other u.mem _ _ _ _ a ha
    · rw [setPin_of_outOfRange hp, State.raiseErrArg_mem]
  · rw [setPin_of_outOfRange hp, State.raiseErrArg_mem]
  · rw [setPin_of_inRange hp, State.withMem_errArg]

end Sys2Proof.Machine
end

section
/-! A SET of the value a column holds (40_encoder.md R108). -/

namespace Sys2Proof.Machine

/-- Writing the bit a byte already holds leaves the byte. -/
theorem setBit_of_getLsbD_eq {x : Byte} {b : Nat} {v : Bool} (h : x.getLsbD b = v) : setBit x b v = x := by
  refine BitVec.eq_of_getLsbD_eq fun i hi => ?_
  rw [getLsbD_setBit x b v hi]
  split
  · next hib => rw [hib, h]
  · rfl

/-- Writing the bit an entry already holds leaves the matrix. -/
theorem matWriteBit_of_getLsbD_eq {m : Memory} (hwf : m.wf = true) {t r b : Nat} {v : Bool}
    (h : (matRead m t r).getLsbD b = v) : matWriteBit m t r b v = m := by
  refine Memory.ext_of_read (matWriteBit_wf hwf t r b v) hwf fun a => ?_
  by_cases ha : a = entryKey t r
  · rw [ha]
    exact (matRead_matWriteBit_self hwf t r b v).trans (setBit_of_getLsbD_eq h)
  · exact read_matWriteBit_other m b v ha

/-- Writing the pattern a column already holds leaves the matrix. -/
theorem writeColumn_of_column_eq {m : Memory} (hwf : m.wf = true) (r b th n : Nat)
    (h : ∀ t < n, (matRead m t r).getLsbD b = colbit th t) : writeColumn r b th n m = m := by
  induction n with
  | zero => rfl
  | succ n ih =>
    rw [writeColumn, matWriteBit_of_getLsbD_eq hwf (h n (Nat.lt_succ_self n))]
    exact ih fun t ht => h t (Nat.lt_succ_of_lt ht)

/-- A SET of the value its column holds leaves `M`. -/
theorem setPin_mem_of_column_eq {s : State} (hwf : s.mem.wf = true) {p : Pin} (hp : p.toNat < s.cfg.nPins) {v : Byte}
    (h : ∀ slice < s.cfg.res, pinColumn s p.toNat slice = decide (slice < scaled v.toNat s.cfg.res)) :
    (setPin p v s).mem = s.mem := by
  rw [setPin_of_inRange hp, State.withMem_mem]
  refine writeColumn_of_column_eq hwf _ _ _ _ fun t ht => ?_
  rw [pinRegister_eq, pinBit_eq]
  exact h t ht

/-- Settles O20: `setPin_mem_of_column_eq` before the first SET and before the second, and `exec_set_column`. -/
theorem setIsIdempotent : Obligations.SetIsIdempotent := by
  intro s p v hs hr hp
  obtain ⟨t, ht, hcol⟩ := exec_set_column hs hr hp v
  refine ⟨t, ht, fun hheld => ?_, fun t' hr' ht' => ?_, fun s₂ t₂ hs₂ hc hr₂ ht₂ slice hslice => ?_⟩
  · rw [exec_set_mem hr ht, setPin_mem_of_column_eq hs.mem_wf hp hheld]
  · have hcfg : t.cfg = s.cfg := (stepKeepsParameters s t (.inr ⟨_, ht⟩)).1
    have hinv : t.Inv := stepKeepsInv s t hs (.inr ⟨_, ht⟩)
    rw [← hcfg] at hp hcol
    rw [exec_set_mem hr' ht', setPin_mem_of_column_eq hinv.mem_wf hp hcol]
  · rw [← hc] at hp hcol hslice
    obtain ⟨x, hx, hcol₂⟩ := exec_set_column hs₂ hr₂ hp v
    obtain rfl : t₂ = x := by injection ht₂.symm.trans hx
    rw [hcol₂ slice hslice, hcol slice hslice]

end Sys2Proof.Machine
end

section
/-! A column through a run without a SET of its pin (40_encoder.md R107). -/

namespace Sys2Proof.Machine

/-- A step that neither resets nor SETs `p` leaves `p`'s column. -/
theorem step_pinColumn_of_no_set {s t : State} (hs : s.Inv) (hr : s.sample.rst = false) (h : step s = .next t)
    {p : Pin} (hp : p.toNat < s.cfg.nPins) (hno : ¬ setsPin s.sample p) :
    ∀ slice < s.cfg.res, pinColumn t p.toNat slice = pinColumn s p.toNat slice := by
  intro slice hslice
  by_cases hset : ∃ q : Pin, q.toNat < s.cfg.nPins ∧ setsPin s.sample q
  · obtain ⟨q, hq, hqset⟩ := hset
    have hne : p.toNat ≠ q.toNat := fun e => hno (BitVec.eq_of_toNat_eq e ▸ hqset)
    obtain ⟨-, hvalid, v, hdecode⟩ := hqset
    rw [pinColumn_congr (step_mem_of_set hr h hvalid hdecode), pinColumn_setPin hs.mem_wf hq v hp hslice, if_neg hne]
  · exact pinColumn_congr (step_mem_of_no_set hr h fun q hq hqset => hset ⟨q, hq, hqset⟩) _ _

/-- What holds of the next inputs listed and of a quiet edge holds of what the edges sample. -/
theorem getD_quiet_of_forall_mem_take {P : Sample → Prop} (hquiet : P Sample.quiet) {l : List Sample} {n k : Nat}
    (h : ∀ e ∈ l.take n, P e) (hk : k < n) : P (l.getD k Sample.quiet) := by
  by_cases hlen : k < l.length
  · rw [List.getD_eq_getElem _ _ hlen]
    exact h _ (List.mem_take_iff_getElem.2 ⟨k, by omega, rfl⟩)
  · rwa [List.getD_eq_default _ _ (by omega)]

theorem not_setsPin_quiet (p : Pin) : ¬ setsPin Sample.quiet p :=
  fun ⟨_, hvalid, _⟩ => Bool.noConfusion hvalid

/-- A run that neither resets nor SETs `p` leaves `p`'s column. -/
theorem stepN_pinColumn_of_no_set {s t : State} (hs : s.Inv) {p : Pin} (hp : p.toNat < s.cfg.nPins) {k : Nat}
    (hr : s.noResetFor k) (hno : ∀ e ∈ s.inputs.take k, ¬ setsPin e p) (h : stepN k s = .next t) :
    t.cfg = s.cfg ∧ ∀ slice < s.cfg.res, pinColumn t p.toNat slice = pinColumn s p.toNat slice := by
  induction k generalizing t with
  | zero =>
    injection h with h
    exact h ▸ ⟨rfl, fun _ _ => rfl⟩
  | succ k ih =>
    obtain ⟨u, x, hu, hx, hstep, hsample, hrst⟩ := hs.run_step hr (Nat.lt_succ_self k)
    obtain rfl : t = x := by injection h.symm.trans hx
    obtain ⟨hcfg, hcol⟩ := ih (noResetFor_mono hr (Nat.le_succ k))
      (fun e he => hno e (List.take_subset_take_left s.inputs (Nat.le_succ k) he)) hu
    obtain ⟨u', hu', hinv, -⟩ := hs.run k
    obtain rfl : u = u' := by injection hu.symm.trans hu'
    have hquiet : ¬ setsPin u.sample p :=
      hsample ▸ getD_quiet_of_forall_mem_take (not_setsPin_quiet p) hno (Nat.lt_succ_self k)
    refine ⟨(stepKeepsParameters u t (.inl hstep)).1.trans hcfg, fun slice hslice => ?_⟩
    rw [step_pinColumn_of_no_set hinv hrst hstep (hcfg ▸ hp) hquiet slice (hcfg ▸ hslice), hcol slice hslice]

/-- Of `n` slices a comparator with threshold `th ≤ n` marks `th` (40_encoder.md R103). -/
theorem countP_range_of_threshold {f : Nat → Bool} {th n : Nat} (hth : th ≤ n) (hf : ∀ t < n, f t = decide (t < th)) :
    (List.range n).countP f = th := by
  have hmin : ∀ k ≤ n, (List.range k).countP f = min k th := by
    intro k hk
    induction k with
    | zero => simp
    | succ k ih =>
      rw [List.range_succ, List.countP_append, ih (by omega), List.countP_singleton, hf k hk]
      by_cases hlt : k < th <;> simp [hlt] <;> omega
  rw [hmin n le_rfl, Nat.min_eq_right hth]

/-- Settles O19: the SET writes the first `scaled(v)` slices, and the run leaves them. -/
theorem setCountAndRun : Obligations.SetCountAndRun := by
  intro s u p v hs hr hp hu k t hreset hno ht
  obtain ⟨x, hx, hset⟩ := exec_set_column hs hr hp v
  obtain rfl : u = x := by injection hu.symm.trans hx
  have hcfg : u.cfg = s.cfg := (stepKeepsParameters s u (.inr ⟨_, hu⟩)).1
  rw [← hcfg] at hp hset ⊢
  obtain ⟨-, hrun⟩ := stepN_pinColumn_of_no_set (stepKeepsInv s u hs (.inr ⟨_, hu⟩)) hp hreset hno ht
  have hcol : ∀ slice < u.cfg.res, pinColumn t p.toNat slice = decide (slice < scaled v.toNat u.cfg.res) :=
    fun slice hslice => (hrun slice hslice).trans (hset slice hslice)
  exact ⟨hcol, countP_range_of_threshold (scaled_le v u.cfg.res) hcol⟩

end Sys2Proof.Machine
end

section
/-! The scheduling cursor (41_scheduler.md R138, R140). -/

namespace Sys2Proof.Machine

/-- The comparison with `RES - 1` is the successor modulo RES. -/
theorem cursor_succ_mod {t res : Nat} (h : t < res) : (if t = res - 1 then 0 else t + 1) = (t + 1) % res := by
  split
  · next hlast => rw [show t + 1 = res by omega, Nat.mod_self]
  · rw [Nat.mod_eq_of_lt (by omega)]

theorem advanceCursor_toNat {c : Config} {t : BitVec 8} (h : t.toNat < c.res) :
    (advanceCursor c t).toNat = (t.toNat + 1) % c.res := by
  have hres := c.res_legal
  rw [← cursor_succ_mod h, advanceCursor]
  split
  · rfl
  · bv_omega

theorem iterate_advanceCursor_toNat {c : Config} {t : BitVec 8} (h : t.toNat < c.res) (k : Nat) :
    ((advanceCursor c)^[k] t).toNat = (t.toNat + k) % c.res := by
  induction k with
  | zero => exact (Nat.mod_eq_of_lt h).symm
  | succ k ih =>
    have hlt : ((advanceCursor c)^[k] t).toNat < c.res := ih ▸ Nat.mod_lt _ (by omega)
    rw [Function.iterate_succ_apply', advanceCursor_toNat hlt, ih, Nat.mod_add_mod, Nat.add_assoc]

/-- Settles O36: `k` advances add `k` modulo RES, from row 0 and from any other. -/
theorem cursorFullCycle : Obligations.CursorFullCycle := by
  intro c
  have hres := c.res_legal
  refine ⟨fun k => ?_, fun t ht => BitVec.eq_of_toNat_eq ?_⟩
  · rw [iterate_advanceCursor_toNat (t := 0) (by simp; omega)]
    simp
  · rw [iterate_advanceCursor_toNat ht, Nat.add_mod_right, Nat.mod_eq_of_lt ht]

/-- Every move of the sequencer leaves the cursor at `nextCursor`. -/
theorem runSequencer_time {s u : State} {req : Nat} (h : runSequencer s req = .next u) : u.time = nextCursor s := by
  obtain ⟨-, -, -, rfl⟩ | ⟨hq, -, rfl⟩ | ⟨hq, -, rfl⟩ | ⟨hq, -, rfl⟩ | ⟨hq, -, -, rfl⟩ |
    ⟨hq, -, -, -, -, rfl⟩ | ⟨hq, -, -, -, rfl⟩ := runSequencer_cases h
  · rfl
  all_goals simp [nextCursor, hq]

theorem rowAfter_of_latch {s : State} (h : s.time.toNat < s.cfg.res) (hq : s.seq = .latch) :
    rowAfter s = (s.time.toNat + 1) % s.cfg.res := by
  rw [rowAfter, if_pos hq, cursor_succ_mod h]

theorem rowAfter_of_not_latch {s : State} (hq : s.seq ≠ .latch) : rowAfter s = s.time.toNat := if_neg hq

end Sys2Proof.Machine
end

section
/-! One edge of the scheduler and the sequencer: an update starts, the block rests, or a frame goes on (41_scheduler.md R134
to R136). -/

namespace Sys2Proof.Machine

/-- `t` is `u` but for what a command writes and for the inputs to come (70_reset_and_hazards.md R241). -/
def SequencerEq (t u : State) : Prop :=
  ∃ (m : Memory) (arg cmd : Bool) (x : List Sample),
    t = { u with mem := m, errArg := arg, errCmd := cmd, inputs := x }

theorem CommandResult.sequencerEq {u w : State} (h : CommandResult u w) : SequencerEq w.consumed u := by
  obtain rfl | ⟨p, v, rfl⟩ | rfl := h
  · exact ⟨_, _, _, _, rfl⟩
  · rw [setPin_keeps]
    exact ⟨_, _, _, _, rfl⟩
  · exact ⟨_, _, _, _, rfl⟩

/-- A step with `rst` low moves the sequencer by the requests its ports hold. -/
theorem step_sequencer {s t : State} (hr : s.sample.rst = false) (h : step s = .next t) :
    ∃ u, runSequencer s (sampleRequests s.sample) = .next u ∧ SequencerEq t u := by
  rw [step_eq_clockEdge, clockEdge_running hr] at h
  obtain ⟨u, hu, rfl⟩ := onNext_eq_next.1 h
  exact ⟨u, hu, (portWrite_result s.sample u).sequencerEq⟩

/-- From `s`, an edge with demand `d` started an update and left `t` (41_scheduler.md R135, 42_sequencer.md R162). -/
structure UpdateStarts (s : State) (d : Nat) (t : State) : Prop where
  seq : t.seq = .shift
  ri : t.ri.toNat = s.cfg.nReg - 1
  bi : t.bi = 0
  ph : t.ph = false
  time : t.time.toNat = rowAfter s
  sb : t.sb = matRead s.mem (rowAfter s) (s.cfg.nReg - 1)
  pend : t.pend = decide (2 ≤ d)
  errOvr : t.errOvr = (s.errOvr || decide (3 ≤ d))

/-- From `s`, an edge started no update and left `t` in IDLE (41_scheduler.md R135, 42_sequencer.md R160, R167). -/
structure Rests (s t : State) : Prop where
  seq : t.seq = .idle
  position : t.ri = 0 ∧ t.bi = 0 ∧ t.ph = false
  time : t.time.toNat = rowAfter s
  sb : t.sb = s.sb
  pend : t.pend = false
  errOvr : t.errOvr = s.errOvr

/-- The edges until the latch cycle: two for each bit still to shift; none outside SHIFT. -/
def State.edgesToLatch (s : State) : Nat :=
  if s.seq = .shift then 16 * (s.ri.toNat + 1) - (2 * s.bi.toNat + s.ph.toNat) else 0

/-- From `s` in SHIFT, an edge with demand `d` moved the frame on and left `t` (41_scheduler.md R136, 42_sequencer.md R163
to R166). -/
structure FrameGoesOn (s : State) (d : Nat) (t : State) : Prop where
  seq : t.seq ≠ .idle
  edgesToLatch : t.edgesToLatch + 1 = s.edgesToLatch
  time : t.time = s.time
  sb : ¬(s.ph = true ∧ s.bi.toNat = 7) → t.sb = s.sb
  pend : t.pend = decide (1 ≤ d)
  errOvr : t.errOvr = (s.errOvr || decide (2 ≤ d))

theorem edgesToLatch_of_shift {s : State} (hq : s.seq = .shift) :
    s.edgesToLatch = 16 * (s.ri.toNat + 1) - (2 * s.bi.toNat + s.ph.toNat) := if_pos hq

theorem edgesToLatch_of_not_shift {s : State} (hq : s.seq ≠ .shift) : s.edgesToLatch = 0 := if_neg hq

/-- A frame that is being shifted has an edge to go. -/
theorem edgesToLatch_pos_iff (s : State) : 0 < s.edgesToLatch ↔ s.seq = .shift := by
  have hbi := s.bi.isLt
  have hph := s.ph.toNat_lt
  constructor
  · intro h
    by_contra hq
    rw [edgesToLatch_of_not_shift hq] at h
    omega
  · intro hq
    rw [edgesToLatch_of_shift hq]
    omega

theorem SequencerEq.updateStarts {s t u : State} {d : Nat} (h : SequencerEq t u) (hu : UpdateStarts s d u) :
    UpdateStarts s d t := by
  obtain ⟨m, arg, cmd, x, rfl⟩ := h
  exact ⟨hu.seq, hu.ri, hu.bi, hu.ph, hu.time, hu.sb, hu.pend, hu.errOvr⟩

theorem SequencerEq.rests {s t u : State} (h : SequencerEq t u) (hu : Rests s u) : Rests s t := by
  obtain ⟨m, arg, cmd, x, rfl⟩ := h
  exact ⟨hu.seq, hu.position, hu.time, hu.sb, hu.pend, hu.errOvr⟩

theorem SequencerEq.frameGoesOn {s t u : State} {d : Nat} (h : SequencerEq t u) (hu : FrameGoesOn s d u) :
    FrameGoesOn s d t := by
  obtain ⟨m, arg, cmd, x, rfl⟩ := h
  exact ⟨hu.seq, hu.edgesToLatch, hu.time, hu.sb, hu.pend, hu.errOvr⟩

theorem SequencerEq.time {t u : State} (h : SequencerEq t u) : t.time = u.time := by
  obtain ⟨m, arg, cmd, x, rfl⟩ := h
  rfl

theorem started_updateStarts {s : State} (h : s.time.toNat < s.cfg.res) (d : Nat) : UpdateStarts s d (s.started d) where
  seq := rfl
  ri := lastRegister_toNat s.cfg
  bi := rfl
  ph := rfl
  time := nextCursor_toNat h
  sb := nextCursor_toNat h ▸ rfl
  pend := rfl
  errOvr := rfl

/-- With a demand outside SHIFT an update starts. -/
theorem runSequencer_starts {s u : State} {req : Nat} (h : runSequencer s req = .next u)
    (htime : s.time.toNat < s.cfg.res) (hq : s.seq ≠ .shift) (hd : 1 ≤ demand s req) :
    UpdateStarts s (demand s req) u := by
  obtain ⟨-, -, -, rfl⟩ | ⟨-, hd', -⟩ | ⟨-, hd', -⟩ | ⟨hq', -⟩ | ⟨hq', -⟩ | ⟨hq', -⟩ | ⟨hq', -⟩ := runSequencer_cases h
  · exact started_updateStarts htime _
  · omega
  · omega
  all_goals exact absurd hq' hq

/-- Without a demand outside SHIFT the block rests. -/
theorem runSequencer_rests {s u : State} {req : Nat} (hs : s.Inv) (h : runSequencer s req = .next u)
    (hq : s.seq ≠ .shift) (hd : demand s req = 0) : Rests s u := by
  have htime : u.time.toNat = rowAfter s := by rw [runSequencer_time h, nextCursor_toNat hs.time_lt]
  obtain ⟨-, hd', -⟩ | ⟨hq', -, rfl⟩ | ⟨-, -, rfl⟩ | ⟨hq', -⟩ | ⟨hq', -⟩ | ⟨hq', -⟩ | ⟨hq', -⟩ := runSequencer_cases h
  · omega
  · exact ⟨hq', hs.position_zero hq, htime, rfl, rfl, Bool.or_false _⟩
  · exact ⟨rfl, ⟨rfl, rfl, rfl⟩, htime, rfl, rfl, Bool.or_false _⟩
  all_goals exact absurd hq' hq

/-- In SHIFT the frame goes on, one edge nearer its latch cycle. -/
theorem runSequencer_frameGoesOn {s u : State} {req : Nat} (h : runSequencer s req = .next u) (hq : s.seq = .shift) :
    FrameGoesOn s (demand s req) u := by
  have hbi := s.bi.isLt
  obtain ⟨hq', -⟩ | ⟨hq', -⟩ | ⟨hq', -⟩ | ⟨-, hph, rfl⟩ | ⟨-, hph, hbi7, rfl⟩ |
    ⟨-, hph, hbi7, hri, -, rfl⟩ | ⟨-, hph, hbi7, hri, rfl⟩ := runSequencer_cases h
  · exact absurd hq hq'
  · exact Seq.noConfusion (hq.symm.trans hq')
  · exact Seq.noConfusion (hq.symm.trans hq')
  · refine ⟨Seq.noConfusion, ?_, rfl, fun _ => rfl, rfl, rfl⟩
    change 16 * (s.ri.toNat + 1) - (2 * s.bi.toNat + 1) + 1 = s.edgesToLatch
    rw [edgesToLatch_of_shift hq, hph, Bool.toNat_false]
    omega
  · have hnext : (s.bi + 1).toNat = s.bi.toNat + 1 := by bv_omega
    refine ⟨Seq.noConfusion, ?_, rfl, fun _ => rfl, rfl, rfl⟩
    change 16 * (s.ri.toNat + 1) - (2 * (s.bi + 1).toNat + 0) + 1 = s.edgesToLatch
    rw [edgesToLatch_of_shift hq, hph, Bool.toNat_true, hnext]
    omega
  · have hprev : (s.ri - 1).toNat = s.ri.toNat - 1 := by bv_omega
    refine ⟨Seq.noConfusion, ?_, rfl, fun hno => absurd ⟨hph, hbi7⟩ hno, rfl, rfl⟩
    change 16 * ((s.ri - 1).toNat + 1) - (2 * 0 + 0) + 1 = s.edgesToLatch
    rw [edgesToLatch_of_shift hq, hph, Bool.toNat_true, hbi7, hprev]
    omega
  · refine ⟨Seq.noConfusion, ?_, rfl, fun _ => rfl, rfl, rfl⟩
    rw [edgesToLatch_of_not_shift Seq.noConfusion, edgesToLatch_of_shift hq, hph, Bool.toNat_true, hbi7, hri]

theorem step_starts {s t : State} (hs : s.Inv) (hr : s.sample.rst = false) (hq : s.seq ≠ .shift)
    (hd : 1 ≤ edgeDemand s) (h : step s = .next t) : UpdateStarts s (edgeDemand s) t := by
  obtain ⟨u, hu, htu⟩ := step_sequencer hr h
  rw [edgeDemand_eq] at hd ⊢
  exact htu.updateStarts (runSequencer_starts hu hs.time_lt hq hd)

theorem step_rests {s t : State} (hs : s.Inv) (hr : s.sample.rst = false) (hq : s.seq ≠ .shift)
    (hd : edgeDemand s = 0) (h : step s = .next t) : Rests s t := by
  obtain ⟨u, hu, htu⟩ := step_sequencer hr h
  rw [edgeDemand_eq] at hd
  exact htu.rests (runSequencer_rests hs hu hq hd)

theorem step_frameGoesOn {s t : State} (hr : s.sample.rst = false) (hq : s.seq = .shift) (h : step s = .next t) :
    FrameGoesOn s (edgeDemand s) t := by
  obtain ⟨u, hu, htu⟩ := step_sequencer hr h
  rw [edgeDemand_eq]
  exact htu.frameGoesOn (runSequencer_frameGoesOn hu hq)

/-- Settles O35: the cursor after the edge is `nextCursor`, which moves in LATCH only. -/
theorem cursorAdvancesAtLatchExit : Obligations.CursorAdvancesAtLatchExit := by
  intro s t htime hr h
  obtain ⟨u, hu, htu⟩ := step_sequencer hr h
  have hcur : t.time = nextCursor s := htu.time.trans (runSequencer_time hu)
  refine ⟨fun hq => ?_, fun hq => ?_⟩
  · rw [cursor_succ_mod htime, hcur, nextCursor_toNat htime, rowAfter_of_latch htime hq]
    exact ⟨rfl, rfl⟩
  · rw [hcur, nextCursor]
    cases hseq : s.seq with
    | latch => exact absurd hseq hq
    | idle | shift => rfl

/-- Settles O26: `step_starts` and `step_rests`. -/
theorem arbitrationWhenStartable : Obligations.ArbitrationWhenStartable := by
  intro s hs hr hq
  obtain ⟨t, ht⟩ := hs.step_next
  obtain hd | hd := Nat.eq_zero_or_pos (edgeDemand s)
  · have h := step_rests hs hr hq hd ht
    exact ⟨t, ht, h.time, fun hd' => by omega, fun _ => ⟨h.seq, h.pend, h.errOvr, h.sb, h.position⟩⟩
  · have h := step_starts hs hr hq hd ht
    exact ⟨t, ht, h.time, fun _ => ⟨h.seq, h.ri, h.bi, h.ph, h.sb, h.pend, h.errOvr⟩, fun hd' => by omega⟩

/-- How a frame moves does not depend on what waits or was lost. -/
theorem shiftOn_arbitrated (s : State) (pend lost : Bool) :
    shiftOn (s.arbitrated pend lost) = onNext (shiftOn s) fun u => u.arbitrated pend lost := by
  unfold shiftOn loadByte
  change (if s.ph = false then _ else if s.bi.toNat < 7 then _ else if 0 < s.ri.toNat then
    (if entryExists s.cfg s.time.toNat (s.ri.toNat - 1) then _ else _) else _) = _
  split
  · rfl
  · split
    · rfl
    · split
      · split <;> rfl
      · rfl

theorem runSequencer_of_shift {s : State} (hq : s.seq = .shift) (req : Nat) :
    runSequencer s req = onNext (shiftOn s) fun u =>
      u.arbitrated (decide (1 ≤ demand s req)) (decide (2 ≤ demand s req)) := by
  rw [runSequencer, hq]

/-- Settles O28: with the request taken away the frame makes the same move (`shiftOn_arbitrated`). -/
theorem arbitrationWhileShifting : Obligations.ArbitrationWhileShifting := by
  intro s hs hr hq
  obtain ⟨t, ht⟩ := hs.step_next
  have hgoes := step_frameGoesOn hr hq ht
  obtain ⟨y, hy, m, arg, cmd, x, rfl⟩ := step_sequencer hr ht
  rw [runSequencer_of_shift hq] at hy
  obtain ⟨w, hw, rfl⟩ := onNext_eq_next.1 hy
  have hbare : ({ s with pend := false, inputs := [] } : State) = (s.arbitrated false false).withInputs [] := by
    simp [State.arbitrated, State.withInputs]
  have hstep : step { s with pend := false, inputs := [] } =
      .next (((w.arbitrated false false).arbitrated false false).withInputs []).consumed := by
    rw [hbare, step_eq_clockEdge, clockEdge_running rfl, runSequencer_withInputs,
      runSequencer_of_shift (s := s.arbitrated false false) hq, shiftOn_arbitrated, hw]
    rfl
  exact ⟨_, _, ht, hstep, hgoes.pend, hgoes.errOvr, rfl, rfl, rfl, rfl, rfl, rfl⟩

/-- An edge with a request and no command's write: an update starts or the request counts beside the frame. -/
theorem clockEdge_request {s : State} (hs : s.Inv) (hr : s.sample.rst = false) {req : Nat} (hreq : 1 ≤ req) :
    ∃ t, clockEdge id req s = .next t ∧ t.mem = s.mem ∧ t.errArg = s.errArg ∧ t.errCmd = s.errCmd ∧
      (s.seq ≠ .shift → UpdateStarts s (demand s req) t) ∧ (s.seq = .shift → FrameGoesOn s (demand s req) t) := by
  obtain ⟨u, hu, hedge⟩ := clockEdge_next (write := id) (req := req) hs hr
  obtain ⟨-, hmem, harg, hcmd, -⟩ := runSequencer_keeps hu
  have htu : SequencerEq u.consumed u := ⟨_, _, _, _, rfl⟩
  have hd : 1 ≤ demand s req := by rw [demand]; omega
  exact ⟨u.consumed, hedge, hmem, harg, hcmd, fun hq => htu.updateStarts (runSequencer_starts hu hs.time_lt hq hd),
    fun hq => htu.frameGoesOn (runSequencer_frameGoesOn hu hq)⟩

theorem exec_update_eq_clockEdge (s : State) : exec .update s = clockEdge id (tickRequests s + 1) s :=
  exec_eq_clockEdge .update s

theorem step_presenting_update (s : State) {w : Word} (hw : w &&& 0xC000#16 = 0x8000#16) :
    step (s.presenting w) = exec .update s := by
  rw [step_presenting, decode_of_masked_update hw]
  rfl

/-- Settles O29: a presented UPDATE word is `exec .update`, whose edge is `clockEdge_request` at one request beside TICK's. -/
theorem updateRequestsOneUpdate : Obligations.UpdateRequestsOneUpdate := by
  intro s w hs hr hw
  obtain ⟨t, ht, hmem, harg, hcmd, hstart, hshift⟩ :=
    clockEdge_request hs hr (show 1 ≤ tickRequests s + 1 by omega)
  rw [← exec_update_eq_clockEdge] at ht
  have htwo : decide (2 ≤ demand s (tickRequests s + 1)) = (s.pend || s.sample.tick) := by
    rw [demand, tickRequests]
    cases s.pend <;> cases s.sample.tick <;> rfl
  have hthree : decide (3 ≤ demand s (tickRequests s + 1)) = (s.pend && s.sample.tick) := by
    rw [demand, tickRequests]
    cases s.pend <;> cases s.sample.tick <;> rfl
  refine ⟨t, ht, (step_presenting_update s hw).trans ht, hmem, harg, hcmd, fun hq => ?_, fun hq => ?_⟩
  · have h := hstart hq
    exact ⟨h.seq, h.ri, h.bi, h.ph, h.time, h.sb, h.pend.trans htwo, hthree ▸ h.errOvr⟩
  · have h := hshift hq
    refine ⟨h.pend.trans (decide_eq_true (by rw [demand]; omega)), ?_⟩
    rw [h.errOvr, htwo, Bool.or_assoc]

/-- In any state TICK is the edge of the same ports with `tick` asserted (log 8). -/
theorem exec_tick_eq_step_withTick (s : State) : exec .tick s = step s.withTick := by
  have hedge := clockEdge_withInputs (portWrite_withInputs s.sample) (portRequests s.sample + 1) s
    { s.sample with tick := true } rfl
  have hreq : sampleRequests { s.sample with tick := true } = portRequests s.sample + 1 := by
    rw [sampleRequests_eq, Nat.add_comm]
    rfl
  rw [← hreq] at hedge
  rw [exec_eq_clockEdge, step_eq_clockEdge, instrRequests, ← hreq]
  exact hedge.symm

/-- Settles O30: without a command TICK's edge is `clockEdge_request` at one request. -/
theorem tickRequestsOneUpdate : Obligations.TickRequestsOneUpdate := by
  intro s hs hr hv
  obtain ⟨t, ht, hmem, harg, hcmd, hstart, hshift⟩ := clockEdge_request hs hr (le_refl 1)
  have hexec : exec .tick s = .next t := by
    have hwrite : portWrite s.sample = id := funext (portWrite_of_not_valid hv)
    have hreq : portRequests s.sample = 0 := by simp [portRequests, hv]
    rw [exec_eq_clockEdge, instrWrite, instrRequests, hwrite, hreq, ht]
  have htwo : decide (2 ≤ demand s 1) = s.pend := by
    rw [demand]
    cases s.pend <;> rfl
  have hthree : decide (3 ≤ demand s 1) = false := by
    rw [demand]
    cases s.pend <;> rfl
  refine ⟨t, hexec, (exec_tick_eq_step_withTick s).symm.trans hexec, hmem, harg, hcmd, fun hq => ?_, fun hq => ?_⟩
  · have h := hstart hq
    refine ⟨h.seq, h.ri, h.bi, h.ph, h.time, h.sb, h.pend.trans htwo, ?_⟩
    rw [h.errOvr, hthree, Bool.or_false]
  · have h := hshift hq
    exact ⟨h.pend.trans (decide_eq_true (by rw [demand]; omega)), htwo ▸ h.errOvr⟩

/-- Settles O31: both instructions are one request, and TICK beside a command is the step, which runs that command. -/
theorem tickAndCommandTogether : Obligations.TickAndCommandTogether := by
  refine ⟨fun s rest => ?_, fun s hr hv ht => ?_, exec_tick_eq_step_withTick⟩
  · rw [exec_eq_clockEdge, exec_eq_clockEdge]
    rfl
  · obtain ⟨hcommand, -, -⟩ := stepRunsDecodedInstruction s hr
    have hreq : sampleRequests s.sample = portRequests s.sample + 1 := by
      rw [sampleRequests_eq, ht, Nat.add_comm]
      rfl
    rw [← hcommand hv, step_eq_clockEdge, hreq, exec_eq_clockEdge]
    rfl

end Sys2Proof.Machine
end

section
/-! Runs without reset: which row the next update emits, and the work that stands before the sequencer (41_scheduler.md R140,
R144). -/

namespace Sys2Proof.Machine

/-- Induction over a run without reset: what holds at first and is kept by each edge, the edge's ports read from the inputs
of the first state, holds at every edge. -/
theorem State.Inv.run_induction {s : State} (hs : s.Inv) {n : Nat} (hr : ∀ k < n, (s.inputs.getD k Sample.quiet).rst = false)
    {P : Nat → State → Prop} (hfirst : P 0 s)
    (hstep : ∀ k < n, ∀ t u, t.Inv → t.cfg = s.cfg → t.sample = s.inputs.getD k Sample.quiet → t.sample.rst = false →
      stepN k s = .next t → step t = .next u → P k t → P (k + 1) u) :
    ∀ k ≤ n, ∃ t, stepN k s = .next t ∧ t.Inv ∧ t.cfg = s.cfg ∧ t.sample = s.inputs.getD k Sample.quiet ∧ P k t := by
  intro k hk
  induction k with
  | zero => exact ⟨s, rfl, hs, rfl, sample_of_inputs_drop rfl, hfirst⟩
  | succ k ih =>
    obtain ⟨t, ht, hinv, hcfg, hsample, hP⟩ := ih (by omega)
    obtain ⟨u, hu⟩ := hinv.step_next
    have hlast : stepN (k + 1) s = .next u := (stepN_last ht).trans hu
    obtain ⟨u', hu', hinv', hin⟩ := hs.run (k + 1)
    obtain rfl : u = u' := by injection hlast.symm.trans hu'
    exact ⟨u, hlast, hinv', (stepKeepsParameters t u (.inl hu)).1.trans hcfg, sample_of_inputs_drop hin,
      hstep k hk t u hinv hcfg hsample (hsample ▸ hr k hk) ht hu hP⟩

/-- Whether an edge with `rst` low starts an update (41_scheduler.md R135). -/
theorem startsAt_of_running {s t : State} {k : Nat} (h : stepN k s = .next t) (hr : t.sample.rst = false) :
    startsAt s k = decide (t.seq ≠ .shift ∧ 1 ≤ edgeDemand t) := by
  rw [startsAt_of_stepN h]
  simp [hr]

/-! The row of the next update (41_scheduler.md R140). -/

/-- The row the next update emits: the cursor in IDLE, the one after it while an update is in progress. -/
def State.nextRow (s : State) : Nat :=
  if s.seq = .idle then s.time.toNat else (s.time.toNat + 1) % s.cfg.res

theorem nextRow_of_idle {s : State} (hq : s.seq = .idle) : s.nextRow = s.time.toNat := if_pos hq

theorem nextRow_of_not_idle {s : State} (hq : s.seq ≠ .idle) : s.nextRow = (s.time.toNat + 1) % s.cfg.res := if_neg hq

/-- Where an update can start, `nextRow` is the row it would emit. -/
theorem nextRow_eq_rowAfter {s : State} (htime : s.time.toNat < s.cfg.res) (hq : s.seq ≠ .shift) :
    s.nextRow = rowAfter s := by
  cases hseq : s.seq with
  | idle => rw [nextRow_of_idle hseq, rowAfter_of_not_latch (by simp [hseq])]
  | latch => rw [nextRow_of_not_idle (by simp [hseq]), rowAfter_of_latch htime hseq]
  | shift => exact absurd hseq hq

/-- An edge moves `nextRow` by one if an update starts at it, and not otherwise. -/
theorem step_nextRow {t u : State} (ht : t.Inv) (hr : t.sample.rst = false) (h : step t = .next u) :
    u.nextRow = (t.nextRow + if t.seq ≠ .shift ∧ 1 ≤ edgeDemand t then 1 else 0) % t.cfg.res := by
  have hcfg : u.cfg = t.cfg := (stepKeepsParameters t u (.inl h)).1
  by_cases hq : t.seq = .shift
  · have hgoes := step_frameGoesOn hr hq h
    rw [nextRow_of_not_idle hgoes.seq, nextRow_of_not_idle (s := t) (by simp [hq]), hgoes.time, hcfg]
    simp [hq]
  · rw [nextRow_eq_rowAfter ht.time_lt hq]
    obtain hd | hd := Nat.eq_zero_or_pos (edgeDemand t)
    · have hrest := step_rests ht hr hq hd h
      rw [nextRow_of_idle hrest.seq, hrest.time, if_neg (by omega), Nat.add_zero,
        Nat.mod_eq_of_lt (rowAfter_lt ht.time_lt)]
    · have hstart := step_starts ht hr hq hd h
      rw [nextRow_of_not_idle (by simp [hstart.seq]), hstart.time, hcfg, if_pos ⟨hq, hd⟩]

/-- After any number of edges the next row lies as many rows on as updates have started (41_scheduler.md R140). -/
theorem stepN_nextRow {s t : State} (hs : s.Inv) (hq : s.seq ≠ .shift) {n : Nat} (hr : s.noResetFor n)
    (h : stepN n s = .next t) : t.nextRow = (rowAfter s + startCount s n) % s.cfg.res := by
  have hfirst : s.nextRow = (rowAfter s + startCount s 0) % s.cfg.res := by
    rw [nextRow_eq_rowAfter hs.time_lt hq]
    exact (Nat.mod_eq_of_lt (rowAfter_lt hs.time_lt)).symm
  obtain ⟨t', ht', -, -, -, hrow⟩ := hs.run_induction (fun k hk => hr.rst hk)
    (P := fun k t => t.nextRow = (rowAfter s + startCount s k) % s.cfg.res) hfirst
    (fun k _ t u hinv hcfg _ hrst ht hu hrow => by
      rw [step_nextRow hinv hrst hu, hrow, hcfg, startCount_succ, startsAt_of_running ht hrst, Nat.mod_add_mod,
        Nat.add_assoc]
      simp) n le_rfl
  obtain rfl : t = t' := by injection h.symm.trans ht'
  exact hrow

/-- The update that starts at edge `n` emits the row `startCount s n` places after the first one's. -/
theorem rowAfter_of_startsAt {s t : State} (hs : s.Inv) (hq : s.seq ≠ .shift) {n : Nat} (hr : s.noResetFor n)
    (h : stepN n s = .next t) (hstart : startsAt s n = true) :
    rowAfter t = (rowAfter s + startCount s n) % s.cfg.res := by
  obtain ⟨t', ht', hinv, -⟩ := hs.run n
  obtain rfl : t = t' := by injection h.symm.trans ht'
  rw [startsAt_of_stepN h, decide_eq_true_iff] at hstart
  obtain ⟨-, hqt, -⟩ := hstart
  rw [← nextRow_eq_rowAfter hinv.time_lt hqt, stepN_nextRow hs hq hr h]

/-- Settles O48: `stepN_nextRow`, read where an update starts and in IDLE. -/
theorem updatesEmitRowsInOrder : Obligations.UpdatesEmitRowsInOrder := by
  intro s n hs hq hr
  obtain ⟨t, ht, -⟩ := hs.run n
  refine ⟨t, ht, rowAfter_of_startsAt hs hq hr ht, fun hidle => ?_⟩
  rw [← nextRow_of_idle hidle, stepN_nextRow hs hq hr ht]

/-! Requests against the time updates take (41_scheduler.md R144). -/

/-- An update just started has its whole frame before it (42_sequencer.md R172). -/
theorem UpdateStarts.edgesToLatch {s t : State} {d : Nat} (h : UpdateStarts s d t) :
    t.edgesToLatch = 16 * s.cfg.nReg := by
  have hnReg := s.cfg.nReg_legal
  rw [edgesToLatch_of_shift h.seq, h.ri, h.bi, h.ph]
  simp
  omega

/-- The edges the sequencer still needs for the frame in progress and for the waiting request. -/
def State.backlog (s : State) : Nat := s.edgesToLatch + s.cfg.updateCycles * s.pend.toNat

/-- The backlog is less than two updates. -/
theorem State.Inv.backlog_lt {s : State} (hs : s.Inv) : s.backlog < 2 * s.cfg.updateCycles := by
  have hlatch : s.edgesToLatch < s.cfg.updateCycles := by
    unfold State.edgesToLatch Config.updateCycles
    split
    · next hq =>
      have hri := hs.ri_lt hq
      omega
    · omega
  unfold State.backlog
  cases s.pend <;> simp <;> omega

/-- An edge that loses no request adds its requests to the backlog and works off at most one edge. -/
theorem step_backlog {t u : State} (ht : t.Inv) (hr : t.sample.rst = false) (h : step t = .next u)
    (hlost : u.errOvr = false) :
    t.errOvr = false ∧ t.backlog + t.cfg.updateCycles * sampleRequests t.sample ≤ u.backlog + 1 := by
  have hcfg : u.cfg = t.cfg := (stepKeepsParameters t u (.inl h)).1
  have hsum : t.backlog + t.cfg.updateCycles * sampleRequests t.sample =
      t.edgesToLatch + t.cfg.updateCycles * edgeDemand t := by
    rw [State.backlog, edgeDemand_eq, demand, Nat.mul_add, Nat.add_assoc]
  rw [hsum, State.backlog, hcfg]
  by_cases hq : t.seq = .shift
  · have hgoes := step_frameGoesOn hr hq h
    obtain ⟨hkept, hd⟩ : t.errOvr = false ∧ edgeDemand t ≤ 1 := by
      simpa [hgoes.errOvr] using hlost
    have hpend : u.pend.toNat = edgeDemand t := by
      rw [hgoes.pend]
      interval_cases edgeDemand t <;> rfl
    have hlatch := hgoes.edgesToLatch
    rw [hpend]
    exact ⟨hkept, by omega⟩
  · rw [edgesToLatch_of_not_shift hq]
    obtain hd | hd := Nat.eq_zero_or_pos (edgeDemand t)
    · have hrest := step_rests ht hr hq hd h
      refine ⟨hrest.errOvr.symm.trans hlost, ?_⟩
      rw [hd]
      omega
    · have hstart := step_starts ht hr hq hd h
      obtain ⟨hkept, hd'⟩ : t.errOvr = false ∧ edgeDemand t < 3 := by
        simpa [hstart.errOvr] using hlost
      have hpend : edgeDemand t = u.pend.toNat + 1 := by
        rw [hstart.pend]
        interval_cases edgeDemand t <;> rfl
      refine ⟨hkept, ?_⟩
      rw [hstart.edgesToLatch, hpend, Nat.mul_add, Config.updateCycles]
      omega

/-- The multiples of `period` among the numbers below `k`, one more with each `k` that is one. -/
theorem multiples_below_succ {period : Nat} (hp : 1 ≤ period) (k : Nat) :
    (k + 1 + (period - 1)) / period = (k + (period - 1)) / period + if period ∣ k then 1 else 0 := by
  have hdvd : period ∣ k + (period - 1) + 1 ↔ period ∣ k := by
    rw [show k + (period - 1) + 1 = k + period by omega, Nat.dvd_add_self_right]
  rw [Nat.add_right_comm, Nat.succ_div]
  simp only [hdvd]

/-- Unless a request was lost, those of `k` edges, one at each multiple of `period`, were worked off or stand in the
backlog. -/
def PeriodicWork (period k : Nat) (t : State) : Prop :=
  t.errOvr = false → t.cfg.updateCycles * ((k + (period - 1)) / period) ≤ k + t.backlog

theorem PeriodicWork.step {period k : Nat} {t u : State} (h : PeriodicWork period k t) (hp : 1 ≤ period) (hinv : t.Inv)
    (hr : t.sample.rst = false) (hreq : sampleRequests t.sample = if period ∣ k then 1 else 0)
    (hu : step t = .next u) : PeriodicWork period (k + 1) u := by
  intro hlost
  have hcfg : u.cfg = t.cfg := (stepKeepsParameters t u (.inl hu)).1
  obtain ⟨hkept, hedge⟩ := step_backlog hinv hr hu hlost
  have hbefore := h hkept
  rw [hreq] at hedge
  rw [hcfg, multiples_below_succ hp, Nat.mul_add]
  omega

/-- Settles O47: with no request lost the backlog would outgrow two updates. -/
theorem fastPeriodicRequestsOverrun : Obligations.FastPeriodicRequestsOverrun := by
  intro s period hs hp hfast hin
  have hfirst : PeriodicWork period 0 s := fun _ => by
    rw [Nat.div_eq_of_lt (by omega)]
    omega
  obtain ⟨t, ht, hinv, hcfg, -, hwork⟩ := hs.run_induction (fun k hk => (hin k hk).1) (P := PeriodicWork period) hfirst
    (fun k hk t u hinv _ hsample hrst _ hu hwork => hwork.step hp hinv hrst (hsample ▸ (hin k hk).2) hu) _ le_rfl
  refine ⟨t, ht, ?_⟩
  by_contra hlost
  have htotal := hwork (by simpa using hlost)
  have hlast := hinv.backlog_lt
  have hcount : (2 * period * s.cfg.updateCycles + (period - 1)) / period = 2 * s.cfg.updateCycles := by
    rw [show 2 * period * s.cfg.updateCycles = period * (2 * s.cfg.updateCycles) by ring,
      Nat.mul_add_div (by omega), Nat.div_eq_of_lt (by omega), Nat.add_zero]
  rw [hcfg] at hlast
  rw [hcfg, hcount] at htotal
  linarith [Nat.mul_le_mul_right (2 * s.cfg.updateCycles) (Nat.succ_le_of_lt hfast)]

/-- What spaced requests leave after `k` edges: none waits or is lost, and a frame in progress was asked for at an edge
`j` that the frame's position names. -/
structure ServedAtOnce (inputs : List Sample) (k : Nat) (t : State) : Prop where
  pend : t.pend = false
  errOvr : t.errOvr = false
  frame : t.seq = .shift → ∃ j < k, sampleRequests (inputs.getD j Sample.quiet) ≠ 0 ∧
    k + t.edgesToLatch = j + t.cfg.updateCycles

/-- While a frame is shifted no spaced request arrives. -/
theorem ServedAtOnce.no_request_in_shift {inputs : List Sample} {k : Nat} {t : State} (h : ServedAtOnce inputs k t)
    (hspaced : ∀ j k : Nat, j < k → k < j + t.cfg.updateCycles →
      sampleRequests (inputs.getD j Sample.quiet) = 0 ∨ sampleRequests (inputs.getD k Sample.quiet) = 0)
    (hq : t.seq = .shift) : sampleRequests (inputs.getD k Sample.quiet) = 0 := by
  obtain ⟨j, hjk, hj, hpos⟩ := h.frame hq
  have hgo := (edgesToLatch_pos_iff t).2 hq
  exact (hspaced j k hjk (by omega)).resolve_left hj

/-- An edge of a run of spaced requests keeps `ServedAtOnce`. -/
theorem ServedAtOnce.step {inputs : List Sample} {k : Nat} {t u : State} (h : ServedAtOnce inputs k t) (hinv : t.Inv)
    (hsample : t.sample = inputs.getD k Sample.quiet) (hr : t.sample.rst = false)
    (hone : sampleRequests t.sample ≤ 1)
    (hspaced : ∀ j k : Nat, j < k → k < j + t.cfg.updateCycles →
      sampleRequests (inputs.getD j Sample.quiet) = 0 ∨ sampleRequests (inputs.getD k Sample.quiet) = 0)
    (hu : step t = .next u) : ServedAtOnce inputs (k + 1) u := by
  have hcfg : u.cfg = t.cfg := (stepKeepsParameters t u (.inl hu)).1
  have hdemand : edgeDemand t = sampleRequests t.sample := by
    rw [edgeDemand_eq, demand, h.pend, Bool.toNat_false, Nat.zero_add]
  by_cases hq : t.seq = .shift
  · have hnone : edgeDemand t = 0 := by rw [hdemand, hsample, h.no_request_in_shift hspaced hq]
    have hgoes := step_frameGoesOn hr hq hu
    obtain ⟨j, hjk, hj, hpos⟩ := h.frame hq
    refine ⟨by simp [hgoes.pend, hnone], by simp [hgoes.errOvr, h.errOvr, hnone], fun _ => ⟨j, by omega, hj, ?_⟩⟩
    rw [hcfg, ← hpos, ← hgoes.edgesToLatch]
    omega
  · obtain hd | hd := Nat.eq_zero_or_pos (edgeDemand t)
    · have hrest := step_rests hinv hr hq hd hu
      exact ⟨hrest.pend, hrest.errOvr.trans h.errOvr, fun hshift => Seq.noConfusion (hrest.seq.symm.trans hshift)⟩
    · have hstart := step_starts hinv hr hq hd hu
      have hd1 : edgeDemand t = 1 := by omega
      refine ⟨by simp [hstart.pend, hd1], by simp [hstart.errOvr, h.errOvr, hd1], fun _ => ⟨k, by omega, ?_, ?_⟩⟩
      · rw [← hsample]
        omega
      · rw [hstart.edgesToLatch, hcfg, Config.updateCycles]
        omega

/-- Settles O46: `ServedAtOnce` along the run. -/
theorem spacedRequestsNeverOverrun : Obligations.SpacedRequestsNeverOverrun := by
  intro c inputs hin hspaced k
  have hedge : ∀ j, (inputs.getD j Sample.quiet).rst = false ∧ sampleRequests (inputs.getD j Sample.quiet) ≤ 1 :=
    fun j => getD_quiet_of_forall_mem_take (P := fun e => e.rst = false ∧ sampleRequests e ≤ 1)
      ⟨rfl, by decide⟩ (fun e he => hin e (List.mem_of_mem_take he)) (Nat.lt_succ_self j)
  obtain ⟨t, ht, -, hcfg, -, hserved⟩ := (resetMeetsInv c inputs).run_induction (fun j _ => (hedge j).1)
    (P := ServedAtOnce inputs) ⟨rfl, rfl, fun hq => Seq.noConfusion hq⟩
    (fun j _ t u hinv hcfg hsample hrst _ hu hserved => by
      refine hserved.step hinv hsample hrst (hsample ▸ (hedge j).2) ?_ hu
      rw [hcfg]
      exact hspaced) k le_rfl
  refine ⟨t, ht, hserved.pend, hserved.errOvr, fun hreq hq => ?_⟩
  rw [hserved.no_request_in_shift (hcfg ▸ hspaced) hq] at hreq
  exact absurd hreq (by decide)

end Sys2Proof.Machine
end

section
/-! The cycles of a frame, and a pin's duty over RES updates (41_scheduler.md R141, 42_sequencer.md R168). -/

namespace Sys2Proof.Machine

/-- Register, bit and phase in cycle `c` of a frame (42_sequencer.md R168). -/
theorem position_of_edgesToLatch {s : State} (hq : s.seq = .shift) {c : Nat} (hc : c < 16 * s.cfg.nReg)
    (h : s.edgesToLatch = 16 * s.cfg.nReg - c) :
    s.ri.toNat = s.cfg.nReg - 1 - c / 16 ∧ s.bi.toNat = c / 2 % 8 ∧ s.ph = decide (c % 2 = 1) := by
  have hbi := s.bi.isLt
  rw [edgesToLatch_of_shift hq] at h
  cases hph : s.ph with
  | false =>
    rw [hph, Bool.toNat_false] at h
    exact ⟨by omega, by omega, (decide_eq_false (by omega)).symm⟩
  | true =>
    rw [hph, Bool.toNat_true] at h
    exact ⟨by omega, by omega, (decide_eq_true (by omega)).symm⟩

/-- At a byte's last cycle the next register's byte is loaded, from the matrix before the edge (42_sequencer.md R165). -/
theorem step_sb_of_next_register {s t : State} (hr : s.sample.rst = false) (hq : s.seq = .shift) (hph : s.ph = true)
    (hbi : s.bi.toNat = 7) (hri : 0 < s.ri.toNat) (h : step s = .next t) :
    t.sb = matRead s.mem s.time.toNat (s.ri.toNat - 1) := by
  obtain ⟨u, hu, m, arg, cmd, x, rfl⟩ := step_sequencer hr h
  have hsb := runSequencer_sb_of_next_register hu hq hph (BitVec.eq_of_toNat_eq hbi) hri
  exact hsb

/-- `t`, reached from `s` at which an update starts, is cycle `c` of that update's frame; the byte on the line was loaded
at edge `16 (c / 16)` (42_sequencer.md R168, 20_memory.md R69). -/
structure FrameCycle (s : State) (c : Nat) (t : State) : Prop where
  seq : t.seq = .shift
  time : t.time.toNat = rowAfter s
  edgesToLatch : t.edgesToLatch = 16 * s.cfg.nReg - c
  sb : ∃ u, stepN (16 * (c / 16)) s = .next u ∧ t.sb = matRead u.mem (rowAfter s) (s.cfg.nReg - 1 - c / 16)

/-- The edge after cycle `c` of a frame leads to cycle `c + 1`. -/
theorem FrameCycle.step {s t u : State} {c : Nat} (h : FrameCycle s c t) (hcfg : t.cfg = s.cfg)
    (hc : c + 1 < 16 * s.cfg.nReg) (ht : stepN (c + 1) s = .next t) (hr : t.sample.rst = false)
    (hu : step t = .next u) : FrameCycle s (c + 1) u := by
  have hgoes := step_frameGoesOn hr h.seq hu
  have hlatch : u.edgesToLatch = 16 * s.cfg.nReg - (c + 1) := by
    have hone := hgoes.edgesToLatch
    rw [h.edgesToLatch] at hone
    omega
  obtain ⟨hri, hbi, hph⟩ := position_of_edgesToLatch (c := c) h.seq (by rw [hcfg]; omega) (hcfg ▸ h.edgesToLatch)
  have hshift : u.seq = .shift := (edgesToLatch_pos_iff u).1 (by omega)
  refine ⟨hshift, hgoes.time ▸ h.time, hlatch, ?_⟩
  by_cases hload : c % 16 = 15
  · refine ⟨t, by rwa [show 16 * ((c + 1) / 16) = c + 1 by omega], ?_⟩
    rw [hcfg] at hri
    rw [step_sb_of_next_register hr h.seq (hph.trans (decide_eq_true (by omega))) (by omega) (by omega) hu, h.time,
      hri]
    congr 1
    omega
  · have hsame : (c + 1) / 16 = c / 16 := by omega
    have hkept : ¬(t.ph = true ∧ t.bi.toNat = 7) := by
      rw [hph, hbi, decide_eq_true_iff]
      omega
    rw [hsame, hgoes.sb hkept]
    exact h.sb

/-- An update that starts runs through the cycles of its frame (42_sequencer.md R162, R168). -/
theorem stepN_frameCycle {s : State} (hs : s.Inv) (hq : s.seq ≠ .shift) (hd : 1 ≤ edgeDemand s)
    (hr : ∀ k < 16 * s.cfg.nReg, (s.inputs.getD k Sample.quiet).rst = false) {c : Nat} (hc : c < 16 * s.cfg.nReg) :
    ∃ t, stepN (c + 1) s = .next t ∧ t.cfg = s.cfg ∧ FrameCycle s c t := by
  obtain ⟨t, ht, -, hcfg, -, hcycle⟩ := hs.run_induction hr
    (P := fun k t => ∀ c, k = c + 1 → FrameCycle s c t) (fun c hzero => by omega)
    (fun k hk t u hinv hcfg _ hrst ht hu hcycle c hkc => by
      obtain rfl : k = c := by omega
      cases k with
      | zero =>
        obtain rfl : s = t := by injection ht
        have hstart := step_starts hs hrst hq hd hu
        exact ⟨hstart.seq, hstart.time, hstart.edgesToLatch, s, rfl, hstart.sb⟩
      | succ k => exact (hcycle k rfl).step hcfg hk ht hrst hu)
    (c + 1) hc
  exact ⟨t, ht, hcfg, hcycle c rfl⟩

/-- In the frame that starts at the next edge a pin's bit is its column's at the frame's row, in the matrix as it stands
when the pin's register is loaded (20_memory.md R61, R69). -/
theorem frameBit_zero {s : State} (hs : s.Inv) (hq : s.seq ≠ .shift) (hd : 1 ≤ edgeDemand s)
    (hr : ∀ k < 16 * s.cfg.nReg, (s.inputs.getD k Sample.quiet).rst = false) {p : Nat} (hp : p < s.cfg.nPins) :
    ∃ u, stepN (16 * (s.cfg.nReg - 1 - p / 8)) s = .next u ∧ frameBit s 0 p = pinColumn u p (rowAfter s) := by
  have hreg : p / 8 < s.cfg.nReg := by
    simp only [Config.nPins] at hp
    omega
  have hc : 2 * (8 * (s.cfg.nReg - 1 - p / 8) + p % 8) + 1 < 16 * s.cfg.nReg := by omega
  obtain ⟨t, ht, hcfg, hcycle⟩ := stepN_frameCycle hs hq hd hr hc
  obtain ⟨-, hbi, hph⟩ := position_of_edgesToLatch hcycle.seq (hcfg.symm ▸ hc) (hcfg.symm ▸ hcycle.edgesToLatch)
  obtain ⟨u, hu, hsb⟩ := hcycle.sb
  have hload : (2 * (8 * (s.cfg.nReg - 1 - p / 8) + p % 8) + 1) / 16 = s.cfg.nReg - 1 - p / 8 := by omega
  rw [hload] at hu hsb
  refine ⟨u, hu, ?_⟩
  have hclk : srClk t = true := by
    rw [srClk, hcycle.seq]
    exact hph.trans (decide_eq_true (by omega))
  have hdata : srData t = t.sb.getLsbD (p % 8) := by
    rw [srData, hcycle.seq]
    exact congrArg t.sb.getLsbD (by omega)
  rw [show s.cfg.nReg - 1 - (s.cfg.nReg - 1 - p / 8) = p / 8 by omega] at hsb
  rw [frameBit, Nat.zero_add, ht]
  simp only [hclk, hdata, hsb, Bool.true_and]
  rfl

theorem stepN_cfg {s t : State} (hs : s.Inv) {k : Nat} (h : stepN k s = .next t) : t.cfg = s.cfg := by
  obtain ⟨t', ht', -, hcfg⟩ := stepN_keeps (P := fun u => u.cfg = s.cfg)
    (fun u w _ hc hw => (stepKeepsParameters u w (.inl hw)).1.trans hc) hs rfl k
  obtain rfl : t = t' := by injection h.symm.trans ht'
  exact hcfg

/-- A frame of a run is a frame of what is left of the run when it starts. -/
theorem frameBit_of_stepN {s t : State} {k : Nat} (h : stepN k s = .next t) (hcfg : t.cfg = s.cfg) (p : Nat) :
    frameBit s k p = frameBit t 0 p := by
  rw [frameBit, frameBit, hcfg, Nat.add_assoc, stepN_add h, Nat.zero_add]

/-- The inputs left after `k` edges are the run's from the `k`-th on. -/
theorem getD_of_inputs_drop {s t : State} {k : Nat} (h : t.inputs = s.inputs.drop k) (j : Nat) :
    t.inputs.getD j Sample.quiet = s.inputs.getD (k + j) Sample.quiet := by
  rw [h, List.getD_eq_getElem?_getD, List.getElem?_drop, List.getD_eq_getElem?_getD]

/-- The premise of 41_scheduler.md R141: after `p`'s last SET, or after reset without one, `p`'s column is the comparator's
pattern for `v`. -/
theorem State.LastSet.column {s : State} {p : Pin} {v : Byte} (h : s.LastSet p v) (hp : p.toNat < s.cfg.nPins) :
    ∀ slice < s.cfg.res, pinColumn s p.toNat slice = decide (slice < scaled v.toNat s.cfg.res) := by
  obtain ⟨a, u, k, ha, hra, hu, hr, hno, hs⟩ | ⟨rfl, c, inputs, k, hr, hno, hs⟩ := h
  · have hucfg : u.cfg = a.cfg := (stepKeepsParameters a u (.inr ⟨_, hu⟩)).1
    have hcfg : s.cfg = a.cfg := (stepN_cfg (stepKeepsInv a u ha (.inr ⟨_, hu⟩)) hs).trans hucfg
    rw [hcfg] at hp ⊢
    exact (setCountAndRun a u p v ha hra hp hu k s hr hno hs).1
  · have hcfg : s.cfg = c := stepN_cfg (resetMeetsInv c inputs) hs
    rw [hcfg] at hp ⊢
    obtain ⟨-, hrun⟩ := stepN_pinColumn_of_no_set (resetMeetsInv c inputs) hp hr hno hs
    intro slice hslice
    have hnone : scaled (0 : Byte).toNat c.res = 0 := scaled_zero c.res
    rw [hrun slice hslice, hnone]
    exact pinColumn_resetOf c p.toNat slice

/-- What is counted over the updates of a run by their number is counted over the numbers. -/
theorem countP_starts (s : State) (f : Nat → Bool) (n : Nat) :
    ((List.range n).filter (startsAt s)).countP (fun k => f (startCount s k)) =
      (List.range (startCount s n)).countP f := by
  induction n with
  | zero => rfl
  | succ n ih =>
    rw [List.range_succ, List.filter_append, List.countP_append, ih, startCount_succ]
    cases h : startsAt s n with
    | false => simp [h]
    | true => simp [h, List.range_succ]

/-- Over a full cycle of rows, from any row on, the rows below a threshold are as many as the threshold. -/
theorem countP_range_mod {r th n : Nat} (hth : th ≤ n) :
    (List.range n).countP (fun i => decide ((r + i) % n < th)) = th := by
  have hsplit := (Nat.count_add (fun x => x % n < th) r n).symm.trans
    ((congrArg _ (Nat.add_comm r n)).trans (Nat.count_add (fun x => x % n < th) n r))
  simp only [Nat.add_mod_left] at hsplit
  have hfirst : Nat.count (fun x => x % n < th) n = th :=
    countP_range_of_threshold hth fun t ht => by simp only [Nat.mod_eq_of_lt ht]
  have hwindow : Nat.count (fun i => (r + i) % n < th) n = th := by omega
  exact hwindow

/-- With `p` not SET until the last byte load of the last frame, its bit in each frame is the first column's at the frame's
row. -/
theorem frameBit_of_no_set {s : State} (hs : s.Inv) (hq : s.seq ≠ .shift) {p : Pin} (hp : p.toNat < s.cfg.nPins)
    {last : Nat} (hr : s.noResetFor (last + 16 * s.cfg.nReg + 1))
    (hno : ∀ e ∈ s.inputs.take (last + 16 * (s.cfg.nReg - 1)), ¬ setsPin e p) {k : Nat} (hk : k ≤ last)
    (hstart : startsAt s k = true) :
    frameBit s k p.toNat = pinColumn s p.toNat ((rowAfter s + startCount s k) % s.cfg.res) := by
  have hnReg := s.cfg.nReg_legal
  have hres := s.cfg.res_legal
  obtain ⟨t, ht, hinv, hin⟩ := hs.run k
  have hcfg := stepN_cfg hs ht
  have hrow := rowAfter_of_startsAt hs hq (noResetFor_mono hr (by omega)) ht hstart
  rw [startsAt_of_stepN ht, decide_eq_true_iff] at hstart
  obtain ⟨-, hqt, hdt⟩ := hstart
  have hrt : ∀ j < 16 * t.cfg.nReg, (t.inputs.getD j Sample.quiet).rst = false := fun j hj => by
    rw [getD_of_inputs_drop hin]
    exact hr.rst (by rw [hcfg] at hj; omega)
  obtain ⟨u, hu, hframe⟩ := frameBit_zero hinv hqt hdt hrt (hcfg ▸ hp)
  have hload : stepN (k + 16 * (s.cfg.nReg - 1 - p.toNat / 8)) s = .next u := by rw [stepN_add ht, ← hcfg, hu]
  obtain ⟨-, hcol⟩ := stepN_pinColumn_of_no_set hs hp (noResetFor_mono hr (by omega))
    (fun e he => hno e (List.take_subset_take_left s.inputs (by omega) he)) hload
  rw [frameBit_of_stepN ht hcfg, hframe, hrow, hcol _ (Nat.mod_lt _ (by omega))]

/-- Settles O49: `frameBit_of_no_set` in each frame, the column of the last SET, and the rows of a full cycle. -/
theorem pinDutyOverCycle : Obligations.PinDutyOverCycle := by
  intro s p v last hs hp hset hfirst _ hcount hr hno
  have hres := s.cfg.res_legal
  rw [startsAt_of_stepN (t := s) rfl, decide_eq_true_iff] at hfirst
  obtain ⟨-, hq, -⟩ := hfirst
  have hbit : ∀ k ≤ last, startsAt s k = true → frameBit s k p.toNat =
      decide ((rowAfter s + startCount s k) % s.cfg.res < scaled v.toNat s.cfg.res) := fun k hk hstart => by
    rw [frameBit_of_no_set hs hq hp hr hno hk hstart, hset.column hp _ (Nat.mod_lt _ (by omega))]
  refine ⟨hbit, ?_⟩
  calc ((List.range (last + 1)).filter (startsAt s)).countP (fun k => frameBit s k p.toNat)
      = ((List.range (last + 1)).filter (startsAt s)).countP fun k =>
          decide ((rowAfter s + startCount s k) % s.cfg.res < scaled v.toNat s.cfg.res) :=
        List.countP_congr fun k hk => by
          obtain ⟨hrange, hstart⟩ := List.mem_filter.1 hk
          rw [hbit k (Nat.le_of_lt_succ (List.mem_range.1 hrange)) hstart]
    _ = (List.range s.cfg.res).countP fun i => decide ((rowAfter s + i) % s.cfg.res < scaled v.toNat s.cfg.res) := by
        rw [countP_starts s (fun i => decide ((rowAfter s + i) % s.cfg.res < scaled v.toNat s.cfg.res)), hcount]
    _ = scaled v.toNat s.cfg.res := countP_range_mod (scaled_le v s.cfg.res)

end Sys2Proof.Machine
end

section
/-! The output lines, and the moves of the sequencer they show (42_sequencer.md R160 to R166, R170, R173, R174). -/

namespace Sys2Proof.Machine

theorem srData_of_shift {s : State} (hq : s.seq = .shift) : srData s = s.sb.getLsbD s.bi.toNat := by
  rw [srData, hq]

theorem srData_of_not_shift {s : State} (hq : s.seq ≠ .shift) : srData s = false := by
  unfold srData
  split
  · next h => exact absurd h hq
  · rfl
  · rfl

theorem srClk_of_shift {s : State} (hq : s.seq = .shift) : srClk s = s.ph := by
  rw [srClk, hq]

theorem srClk_of_not_shift {s : State} (hq : s.seq ≠ .shift) : srClk s = false := by
  unfold srClk
  split
  · next h => exact absurd h hq
  · rfl
  · rfl

theorem srClk_eq_true_iff (s : State) : srClk s = true ↔ s.seq = .shift ∧ s.ph = true := by
  by_cases hq : s.seq = .shift
  · simp [srClk_of_shift hq, hq]
  · simp [srClk_of_not_shift hq, hq]

theorem srLatch_eq (s : State) : srLatch s = decide (s.seq = .latch) := by
  unfold srLatch
  cases s.seq <;> rfl

theorem srLatch_eq_true_iff (s : State) : srLatch s = true ↔ s.seq = .latch := by
  rw [srLatch_eq, decide_eq_true_iff]

theorem srLatch_of_not_latch {s : State} (hq : s.seq ≠ .latch) : srLatch s = false := by
  rw [srLatch_eq, decide_eq_false hq]

/-- Settles O37: the lines' lemmas, state by state. -/
theorem outputLinesByState : Obligations.OutputLinesByState := by
  intro s
  refine ⟨fun hq => ?_, fun hq => ?_, fun hq => ?_⟩
  · have hns : s.seq ≠ .shift := by simp [hq]
    exact ⟨srData_of_not_shift hns, srClk_of_not_shift hns, srLatch_of_not_latch (by simp [hq]), by simp [busy, hq]⟩
  · exact ⟨srData_of_shift hq, srClk_of_shift hq, srLatch_of_not_latch (by simp [hq]), by simp [busy, hq]⟩
  · have hns : s.seq ≠ .shift := by simp [hq]
    exact ⟨srData_of_not_shift hns, srClk_of_not_shift hns, (srLatch_eq_true_iff s).2 hq, by simp [busy, hq]⟩

/-! Edges that answer a next state from every state, of the invariant or not. -/

/-- Where the sequencer answers a next state the step does, the same but for the command's writes. -/
theorem step_of_runSequencer {s u : State} (hr : s.sample.rst = false)
    (h : runSequencer s (sampleRequests s.sample) = .next u) : ∃ t, step s = .next t ∧ SequencerEq t u := by
  rw [step_eq_clockEdge, clockEdge_running hr, h]
  exact ⟨_, rfl, (portWrite_result s.sample u).sequencerEq⟩

theorem runSequencer_idle_without_demand {s : State} {req : Nat} (hq : s.seq = .idle) (hd : demand s req = 0) :
    runSequencer s req = .next (s.arbitrated false false) := by
  simp [runSequencer, serveOrRest, stayIdle, hq, hd]

theorem runSequencer_clock_rises {s : State} (hq : s.seq = .shift) (hph : s.ph = false) (req : Nat) :
    runSequencer s req = .next ((s.withPosition .shift s.ri s.bi true).arbitrated
      (decide (1 ≤ demand s req)) (decide (2 ≤ demand s req))) := by
  rw [runSequencer_of_shift hq, shiftOn, if_pos hph]
  rfl

/-- Settles O27: in IDLE without a demand the sequencer writes `pend` and nothing else. -/
theorem idleKeepsPosition : Obligations.IdleKeepsPosition := by
  intro s hr hq hd
  rw [edgeDemand_eq] at hd
  obtain ⟨t, ht, m, arg, cmd, x, rfl⟩ := step_of_runSequencer hr (runSequencer_idle_without_demand hq hd)
  exact ⟨_, ht, hq, rfl, rfl, rfl, rfl, srData_of_not_shift (by simp [hq]), srClk_of_not_shift (by simp [hq]),
    srLatch_of_not_latch (by simp [hq])⟩

/-! The four moves of a running frame (42_sequencer.md R163 to R166). -/

/-- The position and the shift byte in `t`, one edge of a running frame after `s`. -/
inductive FrameMove (s t : State) : Prop
  /-- The data line keeps its bit and the clock rises (R163). -/
  | clockRises (phase : s.ph = false) (seq : t.seq = .shift) (ri : t.ri = s.ri) (bi : t.bi = s.bi) (ph : t.ph = true)
      (sb : t.sb = s.sb)
  /-- The clock falls and the byte's next bit is on the line (R164). -/
  | nextBit (phase : s.ph = true) (bit : s.bi.toNat < 7) (seq : t.seq = .shift) (ri : t.ri = s.ri)
      (bi : t.bi.toNat = s.bi.toNat + 1) (ph : t.ph = false) (sb : t.sb = s.sb)
  /-- The clock falls and the next register's byte is loaded (R165). -/
  | nextRegister (phase : s.ph = true) (bit : s.bi.toNat = 7) (register : 0 < s.ri.toNat) (seq : t.seq = .shift)
      (ri : t.ri.toNat = s.ri.toNat - 1) (bi : t.bi = 0) (ph : t.ph = false)
      (sb : t.sb = matRead s.mem s.time.toNat (s.ri.toNat - 1))
  /-- The clock falls and LATCH is entered (R166). -/
  | frameEnds (phase : s.ph = true) (bit : s.bi.toNat = 7) (register : s.ri.toNat = 0) (seq : t.seq = .latch)
      (ri : t.ri = 0) (bi : t.bi = 0) (ph : t.ph = false) (sb : t.sb = s.sb)

theorem step_frameMove {s t : State} (hr : s.sample.rst = false) (hq : s.seq = .shift) (h : step s = .next t) :
    FrameMove s t := by
  obtain ⟨u, hu, m, arg, cmd, x, rfl⟩ := step_sequencer hr h
  obtain ⟨hq', -⟩ | ⟨hq', -⟩ | ⟨hq', -⟩ | ⟨-, hph, rfl⟩ | ⟨-, hph, hbi, rfl⟩ |
    ⟨-, hph, hbi, hri, -, rfl⟩ | ⟨-, hph, hbi, hri, rfl⟩ := runSequencer_cases hu
  · exact absurd hq hq'
  · exact Seq.noConfusion (hq.symm.trans hq')
  · exact Seq.noConfusion (hq.symm.trans hq')
  · exact .clockRises hph rfl rfl rfl rfl rfl
  · have hnext : (s.bi + 1).toNat = s.bi.toNat + 1 := by bv_omega
    exact .nextBit hph hbi rfl rfl hnext rfl rfl
  · have hprev : (s.ri - 1).toNat = s.ri.toNat - 1 := by bv_omega
    exact .nextRegister hph hbi hri rfl hprev rfl rfl rfl
  · exact .frameEnds hph hbi hri rfl rfl rfl rfl rfl

/-- Settles O34: the four cases of `FrameMove`, each with the lines it shows. -/
theorem shiftMovesByPosition : Obligations.ShiftMovesByPosition := by
  intro s hs hr hq
  obtain ⟨t, ht⟩ := hs.step_next
  refine ⟨t, ht, (step_frameGoesOn hr hq ht).time, ?_⟩
  cases step_frameMove hr hq ht with
  | clockRises phase seq ri bi ph sb =>
    have hdata : srData t = srData s := by rw [srData_of_shift seq, srData_of_shift hq, sb, bi]
    have hclk : srClk t = true := (srClk_of_shift seq).trans ph
    exact ⟨fun _ => ⟨seq, ri, bi, ph, sb, hclk, hdata⟩, by simp [phase]⟩
  | nextBit phase bit seq ri bi ph sb =>
    have hdata : srData t = s.sb.getLsbD (s.bi.toNat + 1) := by rw [srData_of_shift seq, sb, bi]
    have hclk : srClk t = false := (srClk_of_shift seq).trans ph
    exact ⟨by simp [phase], fun _ _ => ⟨seq, ri, bi, ph, sb, hclk, hdata⟩, by omega, by omega⟩
  | nextRegister phase bit register seq ri bi ph sb =>
    exact ⟨by simp [phase], by omega, fun _ _ _ => ⟨seq, ri, bi, ph, sb⟩, by omega⟩
  | frameEnds phase bit register seq ri bi ph sb =>
    have hns : t.seq ≠ .shift := by simp [seq]
    exact ⟨by simp [phase], by omega, by omega, fun _ _ _ => ⟨seq, ri, bi, ph, sb, (srLatch_eq_true_iff t).2 seq,
      srClk_of_not_shift hns, srData_of_not_shift hns⟩⟩

/-- Settles O39: the clock rises with the data line kept, and every other move of a frame lets the clock fall. -/
theorem dataStableAroundClock : Obligations.DataStableAroundClock := by
  intro s hr hq
  refine ⟨fun hph => ?_, fun t ht hchange => ?_⟩
  · obtain ⟨t, ht, m, arg, cmd, x, rfl⟩ := step_of_runSequencer hr (runSequencer_clock_rises hq hph _)
    exact ⟨_, ht, (srClk_of_shift hq).trans hph, rfl, (srData_of_shift hq).symm⟩
  · rw [srClk_of_shift hq]
    cases step_frameMove hr hq ht with
    | clockRises _ seq _ bi _ sb => exact absurd (by rw [srData_of_shift seq, srData_of_shift hq, sb, bi]) hchange
    | nextBit phase _ seq _ _ ph _ => exact ⟨phase, (srClk_of_shift seq).trans ph⟩
    | nextRegister phase _ _ seq _ _ ph _ => exact ⟨phase, (srClk_of_shift seq).trans ph⟩
    | frameEnds phase _ _ seq _ _ _ _ => exact ⟨phase, srClk_of_not_shift (by simp [seq])⟩

/-- LATCH is entered from the last clock pulse of a frame and from nowhere else. -/
theorem runSequencer_latch_iff {s u : State} {req : Nat} (h : runSequencer s req = .next u) :
    u.seq = .latch ↔ s.seq = .shift ∧ s.ph = true ∧ s.bi.toNat = 7 ∧ s.ri.toNat = 0 := by
  obtain ⟨hq, -, -, rfl⟩ | ⟨hq, -, rfl⟩ | ⟨hq, -, rfl⟩ | ⟨hq, hph, rfl⟩ | ⟨hq, hph, hbi, rfl⟩ |
    ⟨hq, hph, hbi, hri, -, rfl⟩ | ⟨hq, hph, hbi, hri, rfl⟩ := runSequencer_cases h
  · simp [State.started, hq]
  · simp [hq]
  · simp [hq]
  · simp [hph]
  · simp [hbi.ne]
  · simp [hri.ne']
  · simp [hq, hph, hbi, hri]

theorem step_latch_iff {s t : State} (h : step s = .next t) :
    t.seq = .latch ↔
      s.sample.rst = false ∧ s.seq = .shift ∧ s.ph = true ∧ s.bi.toNat = 7 ∧ s.ri.toNat = 0 := by
  cases hr : s.sample.rst with
  | true =>
    obtain rfl : s.afterReset = t := by injection (step_of_reset hr).symm.trans h
    simp
  | false =>
    obtain ⟨u, hu, m, arg, cmd, x, rfl⟩ := step_sequencer hr h
    simpa using runSequencer_latch_iff hu

/-- Settles O40: `step_latch_iff`, read on the lines. -/
theorem oneLatchPulsePerFrame : Obligations.OneLatchPulsePerFrame := by
  intro s t h
  have hlatch := step_latch_iff h
  refine ⟨fun hl => ?_, fun hl => ?_, fun hr hq hclk hri hbi => ?_⟩
  · rw [srLatch_eq_true_iff] at hl
    refine srLatch_of_not_latch fun ht => ?_
    obtain ⟨-, hq, -⟩ := hlatch.1 ht
    exact Seq.noConfusion (hl.symm.trans hq)
  · rw [srLatch_eq_true_iff] at hl
    obtain ⟨hr, hq, hph, hbi, hri⟩ := hlatch.1 hl
    have hns : t.seq ≠ .shift := by simp [hl]
    exact ⟨hr, hq, (srClk_of_shift hq).trans hph, BitVec.eq_of_toNat_eq hri, BitVec.eq_of_toNat_eq hbi,
      srClk_of_not_shift hns, srData_of_not_shift hns⟩
  · have hph : s.ph = true := (srClk_of_shift hq).symm.trans hclk
    exact (srLatch_eq_true_iff t).2 (hlatch.2 ⟨hr, hq, hph, by rw [hbi]; rfl, by rw [hri]; rfl⟩)

/-- From IDLE the block stays there until an update starts, through resets too. -/
theorem stepN_idle_of_no_start {s : State} (hs : s.Inv) (hq : s.seq = .idle) {n : Nat} (hn : startCount s n = 0) :
    ∃ t, stepN n s = .next t ∧ t.seq = .idle := by
  induction n with
  | zero => exact ⟨s, rfl, hq⟩
  | succ n ih =>
    rw [startCount_succ] at hn
    obtain ⟨t, ht, hidle⟩ := ih (by omega)
    obtain ⟨t', ht', hinv, -⟩ := hs.run n
    obtain rfl : t = t' := by injection ht.symm.trans ht'
    have hno : startsAt s n = false := by
      by_contra hstart
      simp [hstart] at hn
    obtain ⟨u, hu⟩ := hinv.step_next
    refine ⟨u, (stepN_last ht).trans hu, ?_⟩
    cases hr : t.sample.rst with
    | true =>
      obtain rfl : t.afterReset = u := by injection (step_of_reset hr).symm.trans hu
      rfl
    | false =>
      have hns : t.seq ≠ .shift := by simp [hidle]
      rw [startsAt_of_running ht hr, decide_eq_false_iff_not] at hno
      exact (step_rests hinv hr hns (by simpa [hns] using hno) hu).seq

/-- Settles O41: the lines by state, and `stepN_idle_of_no_start` from reset. -/
theorem quietLines : Obligations.QuietLines := by
  refine ⟨fun s => ⟨fun hq => ⟨srClk_of_not_shift hq, srData_of_not_shift hq⟩, srLatch_of_not_latch, ?_⟩,
    fun c inputs n hn => ?_⟩
  · rintro ⟨hclk, hlatch⟩
    rw [srLatch_eq_true_iff] at hlatch
    obtain ⟨hq, -⟩ := (srClk_eq_true_iff s).1 hclk
    exact Seq.noConfusion (hq.symm.trans hlatch)
  · obtain ⟨t, ht, hidle⟩ := stepN_idle_of_no_start (resetMeetsInv c inputs) rfl hn
    have hns : t.seq ≠ .shift := by simp [hidle]
    exact ⟨t, ht, srData_of_not_shift hns, srClk_of_not_shift hns, srLatch_of_not_latch (by simp [hidle])⟩

end Sys2Proof.Machine
end

section
/-! The cycles of an update: its frame, its latch cycle and the edge after it (42_sequencer.md R167, R168, R172). -/

namespace Sys2Proof.Machine

/-- The cycle after the last of a frame's: LATCH, with the frame's row still in the cursor (42_sequencer.md R166). -/
theorem stepN_latchCycle {s : State} (hs : s.Inv) (hq : s.seq ≠ .shift) (hd : 1 ≤ edgeDemand s)
    (hr : s.noResetFor (16 * s.cfg.nReg + 1)) :
    ∃ t, stepN (16 * s.cfg.nReg + 1) s = .next t ∧ t.seq = .latch ∧ t.time.toNat = rowAfter s := by
  have hnReg := s.cfg.nReg_legal
  obtain ⟨t, ht, -, hcycle⟩ := stepN_frameCycle hs hq hd (fun k hk => hr.rst (Nat.lt_succ_of_lt hk))
    (c := 16 * s.cfg.nReg - 1) (by omega)
  rw [Nat.sub_add_cancel (by omega)] at ht
  obtain ⟨t', u, ht', hu, hstep, -, hrst⟩ := hs.run_step hr (Nat.lt_succ_self _)
  obtain rfl : t = t' := by injection ht.symm.trans ht'
  have hgoes := step_frameGoesOn hrst hcycle.seq hstep
  have hnone : u.edgesToLatch = 0 := by
    have hone := hgoes.edgesToLatch
    rw [hcycle.edgesToLatch] at hone
    omega
  have hns : u.seq ≠ .shift := fun h => by
    have := (edgesToLatch_pos_iff u).2 h
    omega
  have hlatch : u.seq = .latch := by
    cases hseq : u.seq with
    | idle => exact absurd hseq hgoes.seq
    | shift => exact absurd hseq hns
    | latch => rfl
  exact ⟨u, hu, hlatch, hgoes.time ▸ hcycle.time⟩

/-- Settles O42: each cycle's position (`stepN_frameCycle`) read on the lines, then `stepN_latchCycle`. -/
theorem frameEmitsRow : Obligations.FrameEmitsRow := by
  intro s hs hq hd hr
  refine ⟨fun c hc => ?_, ?_⟩
  · obtain ⟨t, ht, hcfg, hcycle⟩ := stepN_frameCycle hs hq hd (fun k hk => hr.rst (Nat.lt_succ_of_lt hk)) hc
    obtain ⟨u, hu, hsb⟩ := hcycle.sb
    obtain ⟨-, hbi, hph⟩ := position_of_edgesToLatch hcycle.seq (hcfg.symm ▸ hc) (hcfg.symm ▸ hcycle.edgesToLatch)
    refine ⟨t, u, ht, hu, ?_, (srClk_of_shift hcycle.seq).trans hph, srLatch_of_not_latch (by simp [hcycle.seq])⟩
    rw [srData_of_shift hcycle.seq, hsb, hbi]
  · obtain ⟨t, ht, hlatch, -⟩ := stepN_latchCycle hs hq hd hr
    have hns : t.seq ≠ .shift := by simp [hlatch]
    exact ⟨t, ht, srData_of_not_shift hns, srClk_of_not_shift hns, (srLatch_eq_true_iff t).2 hlatch⟩

/-- Settles O44: the frame's cycles (`stepN_frameCycle`), the latch cycle, and the edge that leaves LATCH. -/
theorem updateTakesUpdateCycles : Obligations.UpdateTakesUpdateCycles := by
  intro s hs hq hd hr
  have hframe : s.noResetFor (16 * s.cfg.nReg + 1) := noResetFor_mono hr (Nat.le_succ _)
  obtain ⟨t, ht, hlatch, htime⟩ := stepN_latchCycle hs hq hd hframe
  refine ⟨fun c hc => ?_, ?_⟩
  · obtain hc | rfl := Nat.lt_succ_iff_lt_or_eq.1 hc
    · obtain ⟨u, hu, hcfg, hcycle⟩ := stepN_frameCycle hs hq hd (fun k hk => hframe.rst (Nat.lt_succ_of_lt hk)) hc
      have hposition := position_of_edgesToLatch hcycle.seq (hcfg.symm ▸ hc) (hcfg.symm ▸ hcycle.edgesToLatch)
      rw [hcfg] at hposition
      exact ⟨u, hu, by simp [busy, hcycle.seq], hcycle.time, fun _ => ⟨hcycle.seq, hposition⟩, fun h => by omega⟩
    · exact ⟨t, ht, by simp [busy, hlatch], htime, fun h => by omega, fun _ => hlatch⟩
  · obtain ⟨t', u, ht', hu, hstep, -, hrst⟩ := hs.run_step hr (Nat.lt_succ_self _)
    obtain rfl : t = t' := by injection ht.symm.trans ht'
    have hcfg := stepN_cfg hs ht
    have hlt : t.time.toNat < t.cfg.res := by
      rw [htime, hcfg]
      exact rowAfter_lt hs.time_lt
    obtain ⟨hmoved, -⟩ := cursorAdvancesAtLatchExit t u hlt hrst hstep
    obtain ⟨-, hmod⟩ := hmoved hlatch
    refine ⟨u, hu, fun hu' => ?_, by rw [hmod, htime, hcfg]⟩
    obtain ⟨-, hq', -⟩ := (step_latch_iff hstep).1 hu'
    exact Seq.noConfusion (hlatch.symm.trans hq')

end Sys2Proof.Machine
end

section
/-! The step against the listing of 42_sequencer.md R180: what the command writes, and what the sequencer does. -/

namespace Sys2Proof

/-- `n` with the sequencer's elements as `t` holds them. -/
def ListingState.withSequencerOf (n : ListingState) (t : Machine.State) : ListingState :=
  { n with time := t.time.toNat, seq := t.seq, ri := t.ri.toNat, bi := t.bi.toNat, ph := t.ph.toNat, sb := t.sb,
           pend := t.pend, errOvr := t.errOvr }

end Sys2Proof

namespace Sys2Proof.Machine

/-! The matrix and the error flags. -/

theorem listingBit_eq_setBit (x : Byte) (b : Nat) (c : Bool) : listingBit x b c = setBit x b c := by
  have hmask : BitVec.ofNat 8 (2 ^ b) = 1#8 <<< b :=
    BitVec.eq_of_toNat_eq (by simp [Nat.shiftLeft_eq])
  rw [listingBit, setBit, hmask]
  rfl

/-- The listing's table where the matrix has an entry. -/
theorem listing_M_of_exists {s : State} {t r : Nat} (h : t < s.cfg.res ∧ r < s.cfg.nReg) :
    s.listing.M t r = matRead s.mem t r := if_pos h

theorem listing_M_of_not_exists {s : State} {t r : Nat} (h : ¬(t < s.cfg.res ∧ r < s.cfg.nReg)) :
    s.listing.M t r = 0x00 := if_neg h

/-- The table after a SET in range, entry by entry (42_sequencer.md R180, "matrix and error flags"). -/
theorem listing_M_setPin {s : State} (hwf : s.mem.wf = true) {p : Pin} (hp : p.toNat < s.cfg.nPins) (v : Byte)
    (t q : Nat) :
    (setPin p v s).listing.M t q =
      if t < s.cfg.res ∧ q = p.toNat / 8 then
        listingBit (s.listing.M t q) (p.toNat % 8) (decide (t < (v.toNat * s.cfg.res + 127) / 255))
      else s.listing.M t q := by
  have hreg := pinRegister_lt_nReg hp
  have hnReg := s.cfg.nReg_legal
  have hcfg := setPin_cfg p v s
  rw [← pinRegister_eq, ← pinBit_eq]
  by_cases hin : t < s.cfg.res ∧ q < s.cfg.nReg
  · rw [listing_M_of_exists (hcfg.symm ▸ hin), listing_M_of_exists hin]
    by_cases hq : q = pinRegister p
    · subst hq
      rw [if_pos ⟨hin.1, rfl⟩, setPin_of_inRange hp, State.withMem_mem,
        matRead_writeColumn hwf _ _ _ hin.1 (pinRegister_lt p), listingBit_eq_setBit]
      rfl
    · rw [if_neg fun h => hq h.2, matRead_setPin_other p v s t (by omega) hq]
  · have hout : ¬(t < s.cfg.res ∧ q = pinRegister p) := by omega
    rw [listing_M_of_not_exists (hcfg.symm ▸ hin), listing_M_of_not_exists hin, if_neg hout]

theorem listing_setPin_of_inRange {s : State} (hwf : s.mem.wf = true) {p : Pin} (hp : p.toNat < s.cfg.nPins)
    (v : Byte) : (setPin p v s).listing =
      { s.listing with
        M := fun t q => if t < s.cfg.res ∧ q = p.toNat / 8 then
          listingBit (s.listing.M t q) (p.toNat % 8) (decide (t < (v.toNat * s.cfg.res + 127) / 255))
          else s.listing.M t q } := by
  rw [← funext fun t => funext (listing_M_setPin hwf hp v t), setPin_of_inRange hp]
  rfl

/-- What the command port writes is what the listing's command writes. -/
theorem listing_portWrite {s : State} (hwf : s.mem.wf = true) (e : Sample) :
    (portWrite e s).listing = listingCommand s.cfg.nReg s.cfg.res s.listing e.cmdValid e.cmd.toNat := by
  cases hv : e.cmdValid with
  | false => simp [portWrite_of_not_valid hv, listingCommand]
  | true =>
    have hwrite : portWrite e s = commandWrite (decode e.cmd) s := by simp [portWrite, hv]
    have hop : e.cmd.toNat / 2 ^ 14 = (opField e.cmd).toNat := (opField_toNat e.cmd).symm
    rw [hwrite]
    obtain h | h | h | h := masked_cases e.cmd
    · have hfield : opField e.cmd = 0b00#2 := opField_of_masked h
      rw [decode_of_masked_nop h]
      simp only [commandWrite, listingCommand, hop, hfield]
      rfl
    · have hfield : opField e.cmd = 0b01#2 := opField_of_masked h
      have hreg : e.cmd.toNat / 2 ^ 11 % 2 ^ 3 = (pinField e.cmd).toNat / 8 := by rw [pinField_toNat]; omega
      have hbit : e.cmd.toNat / 2 ^ 8 % 2 ^ 3 = (pinField e.cmd).toNat % 8 := by rw [pinField_toNat]; omega
      rw [decode_of_masked_set h, commandWrite, listingCommand, hop, hfield, hreg, hbit, ← pinField_toNat,
        ← valField_toNat, if_pos ⟨rfl, rfl⟩]
      split
      · next hp => exact listing_setPin_of_inRange hwf hp _
      · next hp => rw [setPin_of_outOfRange hp]; rfl
    · have hfield : opField e.cmd = 0b10#2 := opField_of_masked h
      rw [decode_of_masked_update h]
      simp only [commandWrite, listingCommand, hop, hfield]
      rfl
    · have hfield : opField e.cmd = 0b11#2 := opField_of_masked h
      rw [decode_of_masked_rsvd h]
      simp only [commandWrite, listingCommand, hop, hfield]
      rfl

/-- What the listing's command leaves of `s`, with the ports `s` samples. -/
def State.commanded (s : State) : ListingState :=
  listingCommand s.cfg.nReg s.cfg.res s.listing s.sample.cmdValid s.sample.cmd.toNat

/-- A command writes the same whatever the sequencer's elements hold (70_reset_and_hazards.md R241). -/
theorem listingCommand_withSequencerOf (nReg res : Nat) (n : ListingState) (t : State) (v : Bool) (cmd : Nat) :
    listingCommand nReg res (n.withSequencerOf t) v cmd = (listingCommand nReg res n v cmd).withSequencerOf t := by
  unfold listingCommand
  dsimp only
  split
  · split <;> rfl
  · split <;> rfl

/-- The listing's command leaves the sequencer's elements as they are. -/
theorem commanded_withSequencerOf (s : State) : s.commanded.withSequencerOf s = s.commanded :=
  (listingCommand_withSequencerOf _ _ s.listing s _ _).symm

/-- After a step with `rst` low the matrix and the error flags are those the listing's command leaves. -/
theorem listing_of_step {s t : State} (hs : s.Inv) (hr : s.sample.rst = false) (h : step s = .next t) :
    t.listing = s.commanded.withSequencerOf t := by
  rw [step_eq_clockEdge, clockEdge_running hr] at h
  obtain ⟨u, hu, rfl⟩ := onNext_eq_next.1 h
  obtain ⟨hcfg, hmem, harg, hcmd, -⟩ := runSequencer_keeps hu
  have hbefore : u.listing = s.listing.withSequencerOf u := by
    simp only [State.listing, ListingState.withSequencerOf, hcfg, hmem, harg, hcmd]
  calc (portWrite s.sample u).listing
      = listingCommand s.cfg.nReg s.cfg.res u.listing s.sample.cmdValid s.sample.cmd.toNat :=
        hcfg ▸ listing_portWrite (hmem ▸ hs.mem_wf) s.sample
    _ = s.commanded.withSequencerOf u := by rw [hbefore, listingCommand_withSequencerOf, State.commanded]
    _ = s.commanded.withSequencerOf (portWrite s.sample u).consumed := by rw [portWrite_keeps]; rfl

/-! The sequencer: the listing's lines by where the edge finds it. -/

/-- The listing's step from `s`, with the ports `s` samples. -/
def State.listed (s : State) : ListingState :=
  listingStep s.cfg.nReg s.cfg.res s.listing s.sample.rst s.sample.cmdValid s.sample.cmd.toNat s.sample.tick

theorem listed_of_reset {s : State} (hr : s.sample.rst = true) : s.listed = listingReset := if_pos hr

theorem listing_afterReset (s : State) : s.afterReset.listing = listingReset := by
  have hM : s.afterReset.listing.M = fun _ _ => 0x00 := funext fun t => funext fun r => ite_self _
  rw [listingReset, ← hM]
  rfl

theorem idle_or_latch_of_not_shift {q : Seq} (h : q ≠ .shift) : q = .idle ∨ q = .latch := by
  cases q with
  | idle => exact .inl rfl
  | shift => exact absurd rfl h
  | latch => exact .inr rfl

theorem listed_of_start {s : State} (hr : s.sample.rst = false) (hq : s.seq ≠ .shift) (hd : 1 ≤ edgeDemand s) :
    s.listed =
      { s.commanded with
        time := rowAfter s, seq := .shift, ri := s.cfg.nReg - 1, bi := 0, ph := 0,
        sb := s.listing.M (rowAfter s) (s.cfg.nReg - 1),
        pend := decide (2 ≤ edgeDemand s), errOvr := s.errOvr || decide (3 ≤ edgeDemand s) } :=
  (if_neg (by simp [hr])).trans ((if_pos (idle_or_latch_of_not_shift hq)).trans (if_pos hd))

theorem listed_of_rest {s : State} (hr : s.sample.rst = false) (hq : s.seq ≠ .shift) (hd : edgeDemand s = 0) :
    s.listed = { s.commanded with time := rowAfter s, seq := .idle, ri := 0, bi := 0, ph := 0, pend := false } := by
  have hnone : ¬1 ≤ edgeDemand s := by omega
  exact (if_neg (by simp [hr])).trans ((if_pos (idle_or_latch_of_not_shift hq)).trans (if_neg hnone))

/-- `s.commanded` with what arbitration leaves while a frame is shifted (41_scheduler.md R136). -/
def State.commandedInShift (s : State) : ListingState :=
  { s.commanded with pend := decide (1 ≤ edgeDemand s), errOvr := s.errOvr || decide (2 ≤ edgeDemand s) }

/-- The listing's lines for a running frame. -/
theorem listed_of_shift {s : State} (hr : s.sample.rst = false) (hq : s.seq = .shift) :
    s.listed =
      if s.ph.toNat = 0 then { s.commandedInShift with ph := 1 }
      else if s.bi.toNat < 7 then { s.commandedInShift with bi := s.bi.toNat + 1, ph := 0 }
      else if 0 < s.ri.toNat then
        { s.commandedInShift with
          ri := s.ri.toNat - 1, bi := 0, ph := 0, sb := s.listing.M s.time.toNat (s.ri.toNat - 1) }
      else { s.commandedInShift with seq := .latch, ri := 0, bi := 0, ph := 0 } := by
  have hrunning : ¬(s.seq = .idle ∨ s.seq = .latch) := by simp [hq]
  exact (if_neg (by simp [hr])).trans (if_neg hrunning)

/-- Where an update starts the step's elements are the listing's (42_sequencer.md R162). -/
theorem withSequencerOf_eq_listed_of_start {s t : State} (hs : s.Inv) (hr : s.sample.rst = false) (hq : s.seq ≠ .shift)
    (hd : 1 ≤ edgeDemand s) (h : step s = .next t) : s.commanded.withSequencerOf t = s.listed := by
  have hstart := step_starts hs hr hq hd h
  have hnReg := s.cfg.nReg_legal
  have hsb : t.sb = s.listing.M (rowAfter s) (s.cfg.nReg - 1) := by
    rw [hstart.sb, listing_M_of_exists ⟨rowAfter_lt hs.time_lt, by omega⟩]
  rw [listed_of_start hr hq hd, ListingState.withSequencerOf, hstart.time, hstart.seq, hstart.ri, hstart.bi, hstart.ph,
    hsb, hstart.pend, hstart.errOvr]
  rfl

/-- Where no update starts (42_sequencer.md R160, R167). -/
theorem withSequencerOf_eq_listed_of_rest {s t : State} (hs : s.Inv) (hr : s.sample.rst = false) (hq : s.seq ≠ .shift)
    (hd : edgeDemand s = 0) (h : step s = .next t) : s.commanded.withSequencerOf t = s.listed := by
  have hrest := step_rests hs hr hq hd h
  obtain ⟨hri, hbi, hph⟩ := hrest.position
  rw [listed_of_rest hr hq hd, ← commanded_withSequencerOf, ListingState.withSequencerOf, ListingState.withSequencerOf,
    hrest.time, hrest.seq, hri, hbi, hph, hrest.sb, hrest.pend, hrest.errOvr]
  rfl

/-- In a running frame (42_sequencer.md R163 to R166). -/
theorem withSequencerOf_eq_listed_of_shift {s t : State} (hs : s.Inv) (hr : s.sample.rst = false) (hq : s.seq = .shift)
    (h : step s = .next t) : s.commanded.withSequencerOf t = s.listed := by
  have hgoes := step_frameGoesOn hr hq h
  have harbitrated : s.commanded.withSequencerOf t =
      { s.commandedInShift with seq := t.seq, ri := t.ri.toNat, bi := t.bi.toNat, ph := t.ph.toNat, sb := t.sb } := by
    rw [State.commandedInShift, ← commanded_withSequencerOf, ← hgoes.pend, ← hgoes.errOvr]
    simp only [ListingState.withSequencerOf, hgoes.time]
  have hkept : s.commandedInShift =
      { s.commandedInShift with seq := s.seq, ri := s.ri.toNat, bi := s.bi.toNat, sb := s.sb } := by
    rw [State.commandedInShift, ← commanded_withSequencerOf]
    rfl
  rw [harbitrated, listed_of_shift hr hq]
  cases step_frameMove hr hq h with
  | clockRises phase seq ri bi ph sb =>
    rw [if_pos (by simp [phase]), seq, ri, bi, ph, sb, hkept, hq]
    rfl
  | nextBit phase bit seq ri bi ph sb =>
    rw [if_neg (by simp [phase]), if_pos bit, seq, ri, bi, ph, sb, hkept, hq]
    rfl
  | nextRegister phase bit register seq ri bi ph sb =>
    have hlt := hs.ri_lt hq
    have hentry : s.time.toNat < s.cfg.res ∧ s.ri.toNat - 1 < s.cfg.nReg := ⟨hs.time_lt, by omega⟩
    rw [if_neg (by simp [phase]), if_neg (by omega), if_pos register, seq, ri, bi, ph, sb, listing_M_of_exists hentry,
      hkept, hq]
    rfl
  | frameEnds phase bit register seq ri bi ph sb =>
    rw [if_neg (by simp [phase]), if_neg (by omega), if_neg (by omega), seq, ri, bi, ph, sb, hkept]
    rfl

/-- Settles O50: the listing's command on the one side, and on the other its reset, start, rest and running frame. -/
theorem stepMeetsListing : Obligations.StepMeetsListing := by
  intro s hs
  obtain ⟨t, ht⟩ := hs.step_next
  refine ⟨t, ht, ?_⟩
  change t.listing = s.listed
  cases hr : s.sample.rst with
  | true =>
    obtain rfl : s.afterReset = t := by injection (step_of_reset hr).symm.trans ht
    rw [listed_of_reset hr, listing_afterReset]
  | false =>
    rw [listing_of_step hs hr ht]
    by_cases hq : s.seq = .shift
    · exact withSequencerOf_eq_listed_of_shift hs hr hq ht
    · obtain hd | hd := Nat.eq_zero_or_pos (edgeDemand s)
      · exact withSequencerOf_eq_listed_of_rest hs hr hq hd ht
      · exact withSequencerOf_eq_listed_of_start hs hr hq hd ht

end Sys2Proof.Machine
end

section
/-! NOP and the reserved opcode against an edge with no command (43_misc_commands.md R190, R191), and the frame of the
instructions that store nothing. -/

namespace Sys2Proof.Machine

/-- With no command presented a step is NOP's edge (43_misc_commands.md R190). -/
theorem step_withoutCommand_eq_exec_nop (s : State) : step s.withoutCommand = exec .nop s :=
  (step_withoutCommand s).trans (exec_eq_clockEdge .nop s).symm

theorem step_presenting_nop (s : State) {w : Word} (hw : w &&& 0xC000#16 = 0x0000#16) :
    step (s.presenting w) = exec .nop s := by
  rw [step_presenting, decode_of_masked_nop hw]
  rfl

theorem step_presenting_rsvd (s : State) {w : Word} (hw : w &&& 0xC000#16 = 0xC000#16) :
    step (s.presenting w) = exec .rsvd s := by
  rw [step_presenting, decode_of_masked_rsvd hw]
  rfl

/-- The reserved command's edge is the NOP's edge with `err_cmd` set after it (43_misc_commands.md R191). -/
theorem exec_rsvd_eq_onNext_nop {s : State} (hr : s.sample.rst = false) :
    exec .rsvd s = onNext (exec .nop s) State.raiseErrCmd := by
  rw [exec_eq_clockEdge, exec_eq_clockEdge, clockEdge_running hr, clockEdge_running hr]
  simp only [instrRequests, instrWrite]
  cases runSequencer s (tickRequests s) <;> rfl

/-- Settles O24: a NOP word and the edge with no command are both `exec .nop`, which keeps what a command writes. -/
theorem nopActsAsNoCommand : Obligations.NopActsAsNoCommand := by
  intro s w hs hr hw
  obtain ⟨t, ht, -⟩ := exec_nop_and_set hs hr
  obtain ⟨-, hmem, harg, hcmd⟩ := exec_nop_keeps hr ht
  exact ⟨t, ht, (step_presenting_nop s hw).trans ht, (step_withoutCommand_eq_exec_nop s).trans ht, hmem, harg, hcmd⟩

/-- Settles O25: a reserved word is `exec .rsvd`, which sets `err_cmd` in what NOP's edge leaves. -/
theorem reservedSetsErrCmdOnly : Obligations.ReservedSetsErrCmdOnly := by
  intro s w hs hr hw
  obtain ⟨t, ht, -⟩ := exec_nop_and_set hs hr
  have hrsvd : exec .rsvd s = .next t.raiseErrCmd := (exec_rsvd_eq_onNext_nop hr).trans (onNext_eq_next.2 ⟨t, ht, rfl⟩)
  exact ⟨t, (step_withoutCommand_eq_exec_nop s).trans ht, hrsvd, (step_presenting_rsvd s hw).trans hrsvd⟩

/-! The instructions that store nothing. -/

/-- NOP, UPDATE, RSVD and TICK with no command beside it. -/
def NonStoring (s : State) (i : Instr) : Prop :=
  i = .nop ∨ i = .update ∨ i = .rsvd ∨ (i = .tick ∧ s.sample.cmdValid = false)

/-- All such an instruction can write is `err_cmd`, and only RSVD does. -/
theorem NonStoring.instrWrite_eq {s : State} {i : Instr} (h : NonStoring s i) (u : State) :
    instrWrite s i u = { u with errCmd := u.errCmd || decide (i = .rsvd) } := by
  obtain rfl | rfl | rfl | ⟨rfl, hv⟩ := h
  · simp [instrWrite]
  · simp [instrWrite]
  · simp [instrWrite, State.raiseErrCmd]
  · simp [instrWrite, portWrite_of_not_valid hv]

/-- Their edge is the sequencer's move, `err_cmd` for RSVD, and the sample used up. -/
theorem NonStoring.exec_next {s t : State} {i : Instr} (hi : NonStoring s i) (hr : s.sample.rst = false)
    (h : exec i s = .next t) :
    ∃ u, runSequencer s (instrRequests s i) = .next u ∧
      t = ({ u with errCmd := u.errCmd || decide (i = .rsvd) } : State).consumed := by
  rw [exec_eq_clockEdge, clockEdge_running hr] at h
  obtain ⟨u, hu, rfl⟩ := onNext_eq_next.1 h
  exact ⟨u, hu, by rw [hi.instrWrite_eq]⟩

theorem nextCursor_of_not_latch {s : State} (hq : s.seq ≠ .latch) : nextCursor s = s.time := by
  rw [nextCursor]
  cases hseq : s.seq with
  | latch => exact absurd hseq hq
  | idle | shift => rfl

/-- The shift byte changes only at a byte load: as an update starts, or at the next register (20_memory.md R64). -/
theorem runSequencer_sb_cases {s u : State} {req : Nat} (h : runSequencer s req = .next u) :
    u.sb = s.sb ∨ (s.seq ≠ .shift ∧ u.seq = .shift) ∨
      (s.seq = .shift ∧ s.ph = true ∧ s.bi = 7 ∧ 0 < s.ri.toNat) := by
  obtain ⟨hq, -, -, rfl⟩ | ⟨-, -, rfl⟩ | ⟨-, -, rfl⟩ | ⟨-, -, rfl⟩ | ⟨-, -, -, rfl⟩ |
    ⟨hq, hph, hbi, hri, -⟩ | ⟨-, -, -, -, rfl⟩ := runSequencer_cases h
  · exact .inr (.inl ⟨hq, rfl⟩)
  · exact .inl rfl
  · exact .inl rfl
  · exact .inl rfl
  · exact .inl rfl
  · exact .inr (.inr ⟨hq, hph, BitVec.eq_of_toNat_eq hbi, hri⟩)
  · exact .inl rfl

/-- In SHIFT the requests of an edge decide `pend` and `err_ovr` alone (41_scheduler.md R136). -/
theorem runSequencer_shift_requests {s u : State} {req : Nat} (hq : s.seq = .shift)
    (h : runSequencer s req = .next u) (req' : Nat) :
    ∃ v, runSequencer s req' = .next v ∧ u = { v with pend := u.pend, errOvr := u.errOvr } := by
  rw [runSequencer_of_shift hq] at h ⊢
  obtain ⟨w, hw, rfl⟩ := onNext_eq_next.1 h
  exact ⟨_, onNext_eq_next.2 ⟨w, hw, rfl⟩, rfl⟩

/-- Settles O33: the sequencer keeps what commands write and loads bytes at its own moves; the instruction adds at most
`err_cmd`, and in SHIFT its requests touch `pend` and `err_ovr` alone. -/
theorem frameOfNonStoring : Obligations.FrameOfNonStoring := by
  intro s t i hr hi h
  obtain ⟨u, hu, rfl⟩ := NonStoring.exec_next hi hr h
  obtain ⟨hcfg, hmem, harg, hcmd, hin⟩ := runSequencer_keeps hu
  have hsb := runSequencer_sb_cases hu
  refine ⟨fun a => congrArg (Memory.read · a) hmem, hcfg, congrArg List.tail hin, harg, fun hne => ?_,
    fun hq => (runSequencer_time hu).trans (nextCursor_of_not_latch hq), fun hq hno => ?_, fun hq hidle => ?_,
    fun hq => ?_⟩
  · simpa [hne] using hcmd
  · obtain hkept | ⟨hq', -⟩ | hload := hsb
    · exact hkept
    · exact absurd hq hq'
    · exact absurd hload.2 hno
  · obtain hkept | ⟨-, hstart⟩ | ⟨hq', -⟩ := hsb
    · exact hkept
    · exact Seq.noConfusion (hidle.symm.trans hstart)
    · exact absurd hq' hq
  · obtain ⟨v, hv, huv⟩ := runSequencer_shift_requests hq hu (tickRequests s)
    have hnop : exec .nop s = .next v.consumed := by
      rw [exec_eq_clockEdge, clockEdge_running hr]
      exact onNext_eq_next.2 ⟨v, hv, rfl⟩
    refine ⟨_, hnop, ?_⟩
    rw [huv]
    rfl

end Sys2Proof.Machine
end

section
/-! The block neither stops nor stays busy: every edge has a next state, and without requests IDLE is reached and kept
(60_exceptions.md R200, R218). -/

namespace Sys2Proof.Machine

/-- On the invariant every edge answers a next state, whatever a command writes and however many requests it makes. -/
theorem State.Inv.clockEdge_answers {s : State} (hs : s.Inv) (write : State → State) (req : Nat) :
    ∃ t, clockEdge write req s = .next t := by
  cases hr : s.sample.rst with
  | true => exact ⟨_, clockEdge_reset hr⟩
  | false =>
    obtain ⟨u, -, h⟩ := clockEdge_next hs hr
    exact ⟨_, h⟩

/-- Settles O51: a step and an instruction are both an edge, and an edge answers. -/
theorem nothingEverStops : Obligations.NothingEverStops := by
  intro s hs
  refine ⟨hs.step_next, fun i => ?_⟩
  rw [exec_eq_clockEdge]
  exact hs.clockEdge_answers _ _

/-- The edges until the block is in IDLE if no request comes: the backlog, and the edge that leaves the last LATCH. -/
def State.edgesToIdle (s : State) : Nat := if s.seq = .idle then 0 else s.backlog + 1

theorem edgesToIdle_of_idle {s : State} (hq : s.seq = .idle) : s.edgesToIdle = 0 := if_pos hq

theorem edgesToIdle_of_not_idle {s : State} (hq : s.seq ≠ .idle) : s.edgesToIdle = s.backlog + 1 := if_neg hq

theorem edgesToIdle_eq_zero_iff (s : State) : s.edgesToIdle = 0 ↔ s.seq = .idle :=
  ⟨fun h => by
    by_contra hq
    rw [edgesToIdle_of_not_idle hq] at h
    exact Nat.succ_ne_zero _ h, edgesToIdle_of_idle⟩

/-- Two updates are enough to reach IDLE (60_exceptions.md R218). -/
theorem State.Inv.edgesToIdle_le {s : State} (hs : s.Inv) : s.edgesToIdle ≤ 2 * s.cfg.updateCycles := by
  have hback := hs.backlog_lt
  unfold State.edgesToIdle
  split <;> omega

theorem edgeDemand_of_no_request {s : State} (h : sampleRequests s.sample = 0) : edgeDemand s = s.pend.toNat := by
  rw [edgeDemand_eq, demand, h, Nat.add_zero]

/-- An edge with no request brings the block one edge nearer to IDLE, and leaves it there. -/
theorem step_edgesToIdle {t u : State} (ht : t.Inv) (hr : t.sample.rst = false) (hreq : sampleRequests t.sample = 0)
    (h : step t = .next u) : u.edgesToIdle = t.edgesToIdle - 1 := by
  have hcfg : u.cfg = t.cfg := (stepKeepsParameters t u (.inl h)).1
  have hdemand := edgeDemand_of_no_request hreq
  by_cases hq : t.seq = .shift
  · have hgoes := step_frameGoesOn hr hq h
    have hpend : u.pend = t.pend := by
      rw [hgoes.pend, hdemand]
      cases t.pend <;> rfl
    have hlatch := hgoes.edgesToLatch
    rw [edgesToIdle_of_not_idle hgoes.seq, edgesToIdle_of_not_idle (s := t) (by simp [hq]), State.backlog, State.backlog,
      hcfg, hpend]
    omega
  · have hnone := edgesToLatch_of_not_shift hq
    cases hp : t.pend with
    | false =>
      have hrest := step_rests ht hr hq (by rw [hdemand, hp]; rfl) h
      rw [edgesToIdle_of_idle hrest.seq, State.edgesToIdle, State.backlog, hnone, hp]
      split <;> rfl
    | true =>
      have hd : edgeDemand t = 1 := by rw [hdemand, hp]; rfl
      have hstart := step_starts ht hr hq (by omega) h
      have hbusy : t.seq ≠ .idle := fun hidle => Bool.noConfusion (hp.symm.trans (ht.idle_pend hidle))
      rw [edgesToIdle_of_not_idle (s := u) (by simp [hstart.seq]), edgesToIdle_of_not_idle hbusy, State.backlog,
        State.backlog, hnone, hp, hstart.edgesToLatch, hstart.pend, hd]
      simp [Config.updateCycles]

/-- Settles O45: `edgesToIdle` starts at no more than two updates and runs down. -/
theorem idleWithinTwoUpdates : Obligations.IdleWithinTwoUpdates := by
  intro s hs hin k hk
  have hedge : ∀ j, (s.inputs.getD j Sample.quiet).rst = false ∧ sampleRequests (s.inputs.getD j Sample.quiet) = 0 :=
    fun j => getD_quiet_of_forall_mem_take (P := fun e => e.rst = false ∧ sampleRequests e = 0)
      ⟨rfl, rfl⟩ (fun e he => hin e (List.mem_of_mem_take he)) (Nat.lt_succ_self j)
  obtain ⟨t, ht, hinv, -, -, hleft⟩ := hs.run_induction (fun j _ => (hedge j).1)
    (P := fun j t => t.edgesToIdle = s.edgesToIdle - j) rfl
    (fun j _ t u hinv _ hsample hrst _ hu hleft => by
      rw [step_edgesToIdle hinv hrst (hsample ▸ (hedge j).2) hu, hleft, Nat.sub_sub]) k le_rfl
  have hle := hs.edgesToIdle_le
  have hidle : t.seq = .idle := (edgesToIdle_eq_zero_iff t).1 (by omega)
  exact ⟨t, ht, hidle, hinv.idle_pend hidle⟩

end Sys2Proof.Machine
end

section
/-! Reset dominates the edge (70_reset_and_hazards.md R230, R233). -/

namespace Sys2Proof.Machine

/-- A reset edge launches the instance anew on the inputs still to come. -/
theorem State.afterReset_eq_launch (s : State) : s.afterReset = State.launch s.cfg s.inputs.tail := rfl

/-- With `rst = 1` every edge is a launch, whatever a command would write and however many requests it makes. -/
theorem clockEdge_reset_eq_launch {s : State} (hr : s.sample.rst = true) (write : State → State) (req : Nat) :
    clockEdge write req s = .next (State.launch s.cfg s.inputs.tail) := by
  rw [clockEdge_reset hr, State.afterReset_eq_launch]

/-- Settles O10: a step and an instruction are both an edge, and a reset edge looks at neither the command's writes nor
its requests. -/
theorem resetEdgeDominates : Obligations.ResetEdgeDominates := by
  intro s hr
  refine ⟨?_, fun i => ?_⟩
  · rw [step_eq_clockEdge]
    exact clockEdge_reset_eq_launch hr _ _
  · rw [exec_eq_clockEdge]
    exact clockEdge_reset_eq_launch hr _ _

end Sys2Proof.Machine
end

section
/-! The command words of the test vectors (95_test_vectors.md 2.3). -/

namespace Sys2Proof

/-- Settles O1: each word by its row of the opcode table, and a SET's word by the fields it is put together from. -/
theorem vectorWordsDecode : Obligations.VectorWordsDecode :=
  ⟨decode_of_masked_nop (by decide), decode_of_masked_nop (by decide),
    decode_setFields 0 0, decode_setFields 0 128, decode_setFields 63 255,
    decode_of_masked_update (by decide), decode_of_masked_update (by decide),
    decode_of_masked_rsvd (by decide), decode_of_masked_rsvd (by decide)⟩

end Sys2Proof
end
